-- ==== Sys2Proof/Word.lean ====
section
/-! DEFINITION. The word types of the core (spec/00_scope.md R6, R7): store words and registers, line numbers,
opcode values. Bit 0 is the least significant bit. -/

namespace Sys2Proof

/-- A store word, `A`, `IP` or `IR`: 32 bits (R6 `WORD_BITS`, R7). -/
abbrev Word := BitVec 32

/-- A line number 0..31: 5 bits, so that every line is a valid store index (R6 `LINE_BITS`, R35). -/
abbrev Line := BitVec 5

/-- An opcode value as the 4-bit field of the Extended format holds it; Original values are 0..7 of it (R51, R52). -/
abbrev Opcode := BitVec 4

end Sys2Proof
end

