-- ==== Sys2Proof/Machine/Flags.lean ====
section
/-! DEFINITION. Conditions and arithmetic on words. There are no flags and no condition codes (spec/10_state.md R19):
the one condition is bit 31 of `A`. Arithmetic is modulo 2^32 (spec/42_accumulator.md R105). -/

namespace Sys2Proof.Machine

/-- Bit 31 of the word, the only condition any instruction tests (R19, R92). -/
def signBit (w : Word) : Bool :=
  w.getLsbD 31

/-- `negate(x) = (~x + 1) mod 2^32` (R70). -/
def negate (x : Word) : Word :=
  ~~~x + 1

end Sys2Proof.Machine
end

