-- ==== Sys2Proof/Config.lean ====
section
/-! DEFINITION. What is fixed for an instance of the core: the parameters of spec/00_scope.md R6. The spec leaves no
value free (R9; spec/93_implementation_defined.md), so there is no opaque constant here. -/

namespace Sys2Proof

/-- The parameter `VARIANT` (R2): which of the two instruction sets the core interprets. -/
inductive Variant where
  /-- 8 opcode values, direct addressing only. -/
  | original
  /-- 11 opcode values and an addressing-mode bit. -/
  | extended
deriving DecidableEq, Repr

/-- `STORE_LEN` (R6): the number of store words. -/
def Config.storeLen : Nat := 32

/-- DESIGN CHOICE (log entry 2): the variant of the one instance that the fixed name `State.reset` names. R3 and
decision D2 leave `VARIANT` open; Extended is "the superset" (R2). `State.initial` gives the other. -/
def Config.resetVariant : Variant := .extended

end Sys2Proof
end

