-- ==== Sys2Proof/Syntax.lean ====
section
/-! DEFINITION. The instructions: one constructor per mnemonic of spec/opcode_table.json (spec/30_encoding.md R56),
each holding the two other fields of the Decoded Instruction (R20), the addressing mode and the line. The table's rows
for `n` and `#n`, and for the two variants, are the operand forms of one constructor (log entry 15). -/

namespace Sys2Proof

/-- The addressing mode of a Decoded Instruction (R20): 0 = direct, 1 = immediate. -/
inductive AddrMode where
  | direct
  | immediate
deriving DecidableEq, Repr

/-- The Decoded Instruction (R20, R56). -/
inductive Instr where
  /-- Opcode 0 (R90). -/
  | jmp (mode : AddrMode) (line : Line)
  /-- Opcode 1 (R91). -/
  | jrp (mode : AddrMode) (line : Line)
  /-- Opcode 2 (R100). -/
  | ldn (mode : AddrMode) (line : Line)
  /-- Opcode 3 (R110): `mode` is decoded and has no effect. -/
  | sto (mode : AddrMode) (line : Line)
  /-- Opcode 4 (R101). -/
  | sub (mode : AddrMode) (line : Line)
  /-- Opcode 5 (R102). -/
  | sub5 (mode : AddrMode) (line : Line)
  /-- Opcode 6 (R92): `mode` and `line` are decoded and have no effect. -/
  | skn (mode : AddrMode) (line : Line)
  /-- Opcode 7 (R93): `mode` and `line` are decoded and have no effect. -/
  | stp (mode : AddrMode) (line : Line)
  /-- Opcode 8, Extended only (R103). -/
  | lda (mode : AddrMode) (line : Line)
  /-- Opcode 9, Extended only (R111): `mode` is decoded and has no effect. -/
  | stn (mode : AddrMode) (line : Line)
  /-- Opcode 10, Extended only (R104). -/
  | add (mode : AddrMode) (line : Line)
  /-- Opcode value 11 of the Extended field: not an instruction (R59), a row of the table (R57). -/
  | illegal11 (mode : AddrMode) (line : Line)
  /-- Opcode value 12 of the Extended field: not an instruction (R59). -/
  | illegal12 (mode : AddrMode) (line : Line)
  /-- Opcode value 13 of the Extended field: not an instruction (R59). -/
  | illegal13 (mode : AddrMode) (line : Line)
  /-- Opcode value 14 of the Extended field: not an instruction (R59). -/
  | illegal14 (mode : AddrMode) (line : Line)
  /-- Opcode value 15 of the Extended field: not an instruction (R59). -/
  | illegal15 (mode : AddrMode) (line : Line)
deriving DecidableEq, Repr

/-- The `addressing_mode` of the Decoded Instruction (R20). -/
def Instr.mode : Instr → AddrMode
  | .jmp m _ | .jrp m _ | .ldn m _ | .sto m _ | .sub m _ | .sub5 m _ | .skn m _ | .stp m _ => m
  | .lda m _ | .stn m _ | .add m _ => m
  | .illegal11 m _ | .illegal12 m _ | .illegal13 m _ | .illegal14 m _ | .illegal15 m _ => m

/-- The `line` of the Decoded Instruction (R20). -/
def Instr.line : Instr → Line
  | .jmp _ l | .jrp _ l | .ldn _ l | .sto _ l | .sub _ l | .sub5 _ l | .skn _ l | .stp _ l => l
  | .lda _ l | .stn _ l | .add _ l => l
  | .illegal11 _ l | .illegal12 _ l | .illegal13 _ l | .illegal14 _ l | .illegal15 _ l => l

end Sys2Proof
end

