-- ==== Sys2Proof/WellFormed.lean ====
section
/-! DEFINITION. Which Decoded Instructions the format of a variant can express (spec/40_cycle.md R76): Original has a
3-bit opcode field and no addressing-mode bit (spec/30_encoding.md R51), Extended expresses every one (R52). -/

namespace Sys2Proof

/-- The opcode field of the variant's format is wide enough for the instruction: 3 bits hold the values 0 to 7. -/
def Instr.opcodeFits : Variant → Instr → Bool
  | .extended, _ => true
  | .original, .jmp _ _ | .original, .jrp _ _ | .original, .ldn _ _ | .original, .sto _ _ => true
  | .original, .sub _ _ | .original, .sub5 _ _ | .original, .skn _ _ | .original, .stp _ _ => true
  | .original, .lda _ _ | .original, .stn _ _ | .original, .add _ _ => false
  | .original, .illegal11 _ _ | .original, .illegal12 _ _ | .original, .illegal13 _ _ => false
  | .original, .illegal14 _ _ | .original, .illegal15 _ _ => false

/-- The variant's format has an addressing-mode bit, or the instruction is direct (R74: Original is always direct). -/
def Instr.modeFits : Variant → Instr → Bool
  | .extended, _ => true
  | .original, i => i.mode == .direct

/-- The instruction is one that Decode of the variant can produce. In Extended the undefined opcode values are among
them: "decode always succeeds syntactically" (R75), and Execute is what faults on them (R77). -/
def Instr.wellFormed (v : Variant) (i : Instr) : Bool :=
  i.opcodeFits v && i.modeFits v

end Sys2Proof
end

