-- ==== Sys2Proof/Decode.lean ====
section
/-! DEFINITION. Decode (spec/40_cycle.md R74 to R76) over the formats of spec/30_encoding.md R51 and R52, the opcode map
of R56, and the canonical encoding of R61. Decode has "No failure mode" (R75): every word is some `Instr`, the undefined
Extended opcode values among them, so nothing is rejected here and Execute faults on those by name. -/

namespace Sys2Proof

/-- `line = IR & 0x1F` (R74). -/
def lineField (w : Word) : Line :=
  (w &&& 0x0000001F#32).setWidth 5

/-- `opcode = (IR >> 13) & 0x7` in Original, `(IR >> 13) & 0xF` in Extended (R51, R52, R74). -/
def opcodeField : Variant → Word → Opcode
  | .original, w => ((w >>> 13) &&& 0x00000007#32).setWidth 4
  | .extended, w => ((w >>> 13) &&& 0x0000000F#32).setWidth 4

/-- `mode = IR[31]` in Extended; Original has no addressing-mode bit and is always direct (R74). -/
def modeField : Variant → Word → AddrMode
  | .original, _ => .direct
  | .extended, w => if w.getLsbD 31 then .immediate else .direct

/-- The opcode map of R56, and the five undefined values of R59. -/
def Instr.ofFields (op : Opcode) (m : AddrMode) (l : Line) : Instr :=
  match op.toNat with
  | 0 => .jmp m l
  | 1 => .jrp m l
  | 2 => .ldn m l
  | 3 => .sto m l
  | 4 => .sub m l
  | 5 => .sub5 m l
  | 6 => .skn m l
  | 7 => .stp m l
  | 8 => .lda m l
  | 9 => .stn m l
  | 10 => .add m l
  | 11 => .illegal11 m l
  | 12 => .illegal12 m l
  | 13 => .illegal13 m l
  | 14 => .illegal14 m l
  | _ => .illegal15 m l

/-- Decode (R74): a pure function of `IR` and of the variant. -/
def decode (v : Variant) (w : Word) : Instr :=
  Instr.ofFields (opcodeField v w) (modeField v w) (lineField w)

/-- The opcode value of an instruction (R56, R59), written from the table, not as the inverse of `Instr.ofFields`. -/
def Instr.opcode : Instr → Opcode
  | .jmp _ _ => 0
  | .jrp _ _ => 1
  | .ldn _ _ => 2
  | .sto _ _ => 3
  | .sub _ _ => 4
  | .sub5 _ _ => 5
  | .skn _ _ => 6
  | .stp _ _ => 7
  | .lda _ _ => 8
  | .stn _ _ => 9
  | .add _ _ => 10
  | .illegal11 _ _ => 11
  | .illegal12 _ _ => 12
  | .illegal13 _ _ => 13
  | .illegal14 _ _ => 14
  | .illegal15 _ _ => 15

/-- The addressing-mode bit of R52: 0 = direct, 1 = immediate. -/
def AddrMode.bit : AddrMode → Word
  | .direct => 0
  | .immediate => 1

/-- `encode(opcode, line, mode) = (mode << 31) | (opcode << 13) | line` (R61). -/
def encodeFields (op : Opcode) (m : AddrMode) (l : Line) : Word :=
  (m.bit <<< 31) ||| (op.setWidth 32 <<< 13) ||| l.setWidth 32

/-- The canonical word of an instruction (R61), every ignored bit 0. One word is the whole instruction (R50). -/
def encode (i : Instr) : Word :=
  encodeFields i.opcode i.mode i.line

/-- The word whose bits are `w`, of which the opcode table gives `nbits`; the bits above them are 0. An instruction is
one whole store word with no byte order (R37, R50), so its bits are numbered as the table numbers them. -/
def tableWord (nbits w : Nat) : Word :=
  BitVec.ofNat 32 (w % 2 ^ nbits)

/-- What the decoder of the reset variant reads from the instruction whose bits are `w`; an instruction has 32 bits
(R50), so nothing is read from more. The table's Original rows without bits 16 and 31 decode alike in both (R54). -/
def decodeTableWord (nbits w : Nat) : Option Instr :=
  if nbits ≤ 32 then some (decode Config.resetVariant (tableWord nbits w)) else none

end Sys2Proof
end

