-- ==== Sys2Proof/Machine/State.lean ====
section
/-! DEFINITION. The Machine State (spec/10_state.md R10), the state after reset (R23), and the reasons a step can stop.
The state is the spec's four elements, and two fields of the model's own: the parameter `VARIANT` (log entry 1) and the
signal the latest cycle returned (log entry 3), for which Host.Core has no other place. -/

namespace Sys2Proof.Machine

/-- The two-valued result of a cycle (R82). -/
inductive Signal where
  /-- `Continue`. -/
  | cont
  /-- `Stop`, produced by STP and by nothing else. -/
  | stop
deriving DecidableEq, Repr

/-- A store word at a line. The unit is the 32-bit word: the hardware has no smaller one (R31, R37; log entry 7). -/
abbrev Cell := Nat × Word

/-- The store as its non-zero words in rising order of their lines; a line that is not listed reads as `unlisted`. -/
abbrev Memory := List Cell

/-- What an unlisted line reads as: the reset contents of every store word (R23). -/
def unlisted : Word := 0

/-- The canonical form: lines strictly rising and in 0..31 (R30), and no entry equal to what an unlisted line reads. -/
abbrev Memory.wf (m : Memory) : Prop :=
  m.Pairwise (fun c d => c.1 < d.1) ∧ ∀ c ∈ m, c.1 < Config.storeLen ∧ c.2 ≠ unlisted

/-- The Machine State (R10) with the variant it runs under and the signal last returned. -/
structure State where
  /-- `S[0..31]` (R11), in the canonical form of `Memory.wf`. -/
  store : Memory
  /-- The accumulator `A` (R12). -/
  a : Word
  /-- The instruction pointer `IP` (R13), all 32 bits kept (R14). -/
  ip : Word
  /-- The instruction register `IR` (R17). -/
  ir : Word
  /-- The parameter `VARIANT` (R3): configuration that no step changes (log entry 1). -/
  variant : Variant
  /-- The signal the latest completed cycle returned, `none` if there was none since reset. It is the cycle's return
  value and not a latch of the core (R21, R82): no rule of the machine reads it (log entry 3). -/
  signal : Option Signal
deriving DecidableEq, Repr

/-- The machine right after reset (R23), as an instance of the given variant. -/
def State.initial (v : Variant) : State where
  store := []
  a := 0
  ip := 0
  ir := 0
  variant := v
  signal := none

/-- The machine right after reset (R23). DESIGN CHOICE (log entry 2): the instance named here is the Extended one. -/
def State.reset : State :=
  State.initial Config.resetVariant

/-- Why a cycle ends with the outcome `Fault` (R120). `LineOutOfRange` and `ModeOutOfRange` have no constructor: R120
says that nothing raises them, and the types of `Instr` cannot express them. -/
inductive Fault where
  /-- `IllegalOpcode(op)`: raised by Execute on an opcode value that is not defined for the variant (R77, R120), before
  any operand is read or any state changed. `left` is the state the faulting cycle leaves, the one after its Fetch
  (R121). Safe: the hardware's run is over as well (R122). -/
  | illegalOpcode (op : Opcode) (left : State)
deriving DecidableEq, Repr

/-- Why the model has no meaning for an instruction. -/
inductive Refusal where
  /-- An instruction not modelled yet, raised only by an arm of `exec`. Safe. No arm raises it in this package. -/
  | notModelled (mnemonic : String)
deriving DecidableEq, Repr

end Sys2Proof.Machine
end

