-- ==== Sys2Proof/Machine/Ops.lean ====
section
/-! DEFINITION. The named operations over the Machine State: the store (spec/20_memory.md R33, R34), the registers,
Fetch (spec/40_cycle.md R71, R72), and the part of Execute every instruction shares (R77, R80, R82), with the one fault
(spec/60_exceptions.md R120, R121). There is no return from a fault: none exists (R122, R128). -/

namespace Sys2Proof.Machine

/-! ### The store -/

/-- The word at line `n`: the listed one, or what an unlisted line reads as. -/
def Memory.read : Memory → Nat → Word
  | [], _ => unlisted
  | (k, w) :: rest, n => if k = n then w else Memory.read rest n

/-- The list without its entries for line `n`. -/
def Memory.remove : Memory → Nat → Memory
  | [], _ => []
  | (k, w) :: rest, n => if k = n then Memory.remove rest n else (k, w) :: Memory.remove rest n

/-- The entry put at its place in the rising order of lines. -/
def Memory.place : Memory → Nat → Word → Memory
  | [], n, v => [(n, v)]
  | (k, w) :: rest, n, v => if n < k then (n, v) :: (k, w) :: rest else (k, w) :: Memory.place rest n v

/-- Line `n` holds `v` afterwards; writing what an unlisted line reads as removes the entry. -/
def Memory.write (m : Memory) (n : Nat) (v : Word) : Memory :=
  if v = unlisted then m.remove n else (m.remove n).place n v

/-- `MemRead(addr, 32)` (R33): total, without side effect. -/
def memRead (s : State) (l : Line) : Word :=
  s.store.read l.toNat

/-- `MemWrite(addr, 32, v)` (R34): one whole word, nothing else changes. -/
def memWrite (s : State) (l : Line) (v : Word) : State :=
  { s with store := s.store.write l.toNat v }

/-! ### The registers -/

/-- `A <- v`. -/
def writeA (s : State) (v : Word) : State :=
  { s with a := v }

/-- `IP <- v`, all 32 bits (R14). -/
def writeIp (s : State) (v : Word) : State :=
  { s with ip := v }

/-- The cycle returns `sig` (R82). -/
def writeSignal (s : State) (sig : Signal) : State :=
  { s with signal := some sig }

/-! ### Fetch -/

/-- The line an instruction pointer addresses: `IP & LINE_MASK`, its low 5 bits (R35, R72). -/
def lineOfIp (ip : Word) : Line :=
  ip.setWidth 5

/-- The line the next Fetch reads: `(IP + 1)[4:0]` (R13, R72). -/
def nextLine (s : State) : Line :=
  lineOfIp (s.ip + 1)

/-- Fetch: `IP <- IP + 1`, then `IR <- S[IP[4:0]]` with the incremented `IP` (R71, R72). -/
def fetch (s : State) : State :=
  { s with ip := s.ip + 1, ir := memRead s (nextLine s) }

/-! ### Execute: check, body, signal -/

/-- The opcode is "a value defined above for the active variant" (R77): 0..7 in Original, 0..10 in Extended (R56). -/
def opcodeDefined (v : Variant) (op : Opcode) : Bool :=
  match v with
  | .original => decide (op.toNat < 8)
  | .extended => decide (op.toNat < 11)

/-- `raise IllegalOpcode(op)` (R120): the cycle ends with the outcome `Fault` and leaves the state Execute was given,
which is the one after Fetch (R121). It saves nothing and transfers control nowhere (R127). -/
def raiseIllegalOpcode (op : Opcode) (s : State) : Host.Outcome State Fault Refusal :=
  .fault (.illegalOpcode op s)

/-- What every instruction's Execute does: the check of R77 before anything else, then the instruction's own `body`,
then the signal (R80, R82). -/
def execute (op : Opcode) (sig : Signal) (body : State → State) (s : State) : Host.Outcome State Fault Refusal :=
  if opcodeDefined s.variant op then .next (writeSignal (body s) sig) else raiseIllegalOpcode op s

/-! ### The loader's write, and an instruction placed where the next Fetch reads it -/

/-- The word placed at the line the next Fetch reads; nothing else changes. -/
def placeAtFetch (s : State) (w : Word) : State :=
  memWrite s (nextLine s) w

end Sys2Proof.Machine
end

