-- ==== Sys2Proof/Machine/Operands.lean ====
section
/-! DEFINITION. Operand resolution (spec/40_cycle.md R78, spec/30_encoding.md R55): the two addressing modes, and no
others (spec/43_store.md R112). -/

namespace Sys2Proof.Machine

/-- The operand: `S[line]` in direct mode, and always in Original, which has no addressing-mode bit;
`zext_32(line)` in immediate mode, Extended only (R78). -/
def operand (m : AddrMode) (l : Line) (s : State) : Word :=
  match s.variant, m with
  | .original, _ => memRead s l
  | .extended, .direct => memRead s l
  | .extended, .immediate => l.setWidth 32

end Sys2Proof.Machine
end

