-- ==== Sys2Proof/Machine/Accumulator.lean ====
section
/-! DEFINITION. The accumulator instructions LDN, SUB, SUB5, LDA and ADD (spec/42_accumulator.md): each writes `A` and
nothing else, modulo 2^32 (R105). -/

namespace Sys2Proof.Machine

/-- LDN (R100): `A <- negate(operand)`. -/
def execLdn (m : AddrMode) (l : Line) (s : State) : Host.Outcome State Fault Refusal :=
  execute 2 .cont (fun s => writeA s (negate (operand m l s))) s

/-- SUB (R101): `A <- A - operand`. -/
def execSub (m : AddrMode) (l : Line) (s : State) : Host.Outcome State Fault Refusal :=
  execute 4 .cont (fun s => writeA s (s.a - operand m l s)) s

/-- SUB5 (R102): `A <- A - operand`, the second opcode value of the subtraction. -/
def execSub5 (m : AddrMode) (l : Line) (s : State) : Host.Outcome State Fault Refusal :=
  execute 5 .cont (fun s => writeA s (s.a - operand m l s)) s

/-- LDA, Extended only (R103): `A <- operand`. -/
def execLda (m : AddrMode) (l : Line) (s : State) : Host.Outcome State Fault Refusal :=
  execute 8 .cont (fun s => writeA s (operand m l s)) s

/-- ADD, Extended only (R104): `A <- A + operand`. -/
def execAdd (m : AddrMode) (l : Line) (s : State) : Host.Outcome State Fault Refusal :=
  execute 10 .cont (fun s => writeA s (s.a + operand m l s)) s

end Sys2Proof.Machine
end

