-- ==== Sys2Proof/Machine/Control.lean ====
section
/-! DEFINITION. The control-transfer instructions JMP, JRP, SKN and STP (spec/41_control.md). Each is given the state
after Fetch, so `s.ip` is the address of the instruction being executed. -/

namespace Sys2Proof.Machine

/-- JMP (R90): `IP <- operand`. -/
def execJmp (m : AddrMode) (l : Line) (s : State) : Host.Outcome State Fault Refusal :=
  execute 0 .cont (fun s => writeIp s (operand m l s)) s

/-- JRP (R91): `IP <- IP - operand`; the source subtracts (log entry 14). -/
def execJrp (m : AddrMode) (l : Line) (s : State) : Host.Outcome State Fault Refusal :=
  execute 1 .cont (fun s => writeIp s (s.ip - operand m l s)) s

/-- SKN, the source's CMP/SKN (R92): `if A[31] = 1 then IP <- IP + 1`; mode and line have no effect. -/
def execSkn (_m : AddrMode) (_l : Line) (s : State) : Host.Outcome State Fault Refusal :=
  execute 6 .cont (fun s => if signBit s.a then writeIp s (s.ip + 1) else s) s

/-- STP (R93): the signal Stop, no state mutation; mode and line have no effect. -/
def execStp (_m : AddrMode) (_l : Line) (s : State) : Host.Outcome State Fault Refusal :=
  execute 7 .stop (fun s => s) s

end Sys2Proof.Machine
end

