-- ==== Sys2Proof/Machine/Illegal.lean ====
section
/-! DEFINITION. The five opcode values of the Extended field that are no instructions (spec/30_encoding.md R59): each
raises `IllegalOpcode` with its own value (spec/60_exceptions.md R120) and changes nothing (R121). -/

namespace Sys2Proof.Machine

/-- Opcode value 11 (R59, R120). -/
def execIllegal11 (_m : AddrMode) (_l : Line) (s : State) : Host.Outcome State Fault Refusal :=
  raiseIllegalOpcode 11 s

/-- Opcode value 12 (R59, R120). -/
def execIllegal12 (_m : AddrMode) (_l : Line) (s : State) : Host.Outcome State Fault Refusal :=
  raiseIllegalOpcode 12 s

/-- Opcode value 13 (R59, R120). -/
def execIllegal13 (_m : AddrMode) (_l : Line) (s : State) : Host.Outcome State Fault Refusal :=
  raiseIllegalOpcode 13 s

/-- Opcode value 14 (R59, R120). -/
def execIllegal14 (_m : AddrMode) (_l : Line) (s : State) : Host.Outcome State Fault Refusal :=
  raiseIllegalOpcode 14 s

/-- Opcode value 15 (R59, R120). -/
def execIllegal15 (_m : AddrMode) (_l : Line) (s : State) : Host.Outcome State Fault Refusal :=
  raiseIllegalOpcode 15 s

end Sys2Proof.Machine
end

