-- ==== Sys2Proof/Machine/Store.lean ====
section
/-! DEFINITION. The store instructions STO and STN (spec/43_store.md): the only ones that write the store, always at
the line field, whatever the mode. -/

namespace Sys2Proof.Machine

/-- STO (R110): `S[line] <- A`. -/
def execSto (_m : AddrMode) (l : Line) (s : State) : Host.Outcome State Fault Refusal :=
  execute 3 .cont (fun s => memWrite s l s.a) s

/-- STN, Extended only (R111): `S[line] <- negate(A)`. -/
def execStn (_m : AddrMode) (l : Line) (s : State) : Host.Outcome State Fault Refusal :=
  execute 9 .cont (fun s => memWrite s l (negate s.a)) s

end Sys2Proof.Machine
end

