-- ==== Sys2Proof/Machine/Dispatch.lean ====
section
/-! DEFINITION. Dispatch (spec/40_cycle.md R80): exactly one instruction rule per opcode value. -/

namespace Sys2Proof.Machine

/-- Execute (R77, R80) of a Decoded Instruction on the state after Fetch. -/
def exec (i : Instr) (s : State) : Host.Outcome State Fault Refusal :=
  match i with
  | .jmp m l => Sys2Proof.Machine.execJmp m l s
  | .jrp m l => Sys2Proof.Machine.execJrp m l s
  | .ldn m l => Sys2Proof.Machine.execLdn m l s
  | .sto m l => Sys2Proof.Machine.execSto m l s
  | .sub m l => Sys2Proof.Machine.execSub m l s
  | .sub5 m l => Sys2Proof.Machine.execSub5 m l s
  | .skn m l => Sys2Proof.Machine.execSkn m l s
  | .stp m l => Sys2Proof.Machine.execStp m l s
  | .lda m l => Sys2Proof.Machine.execLda m l s
  | .stn m l => Sys2Proof.Machine.execStn m l s
  | .add m l => Sys2Proof.Machine.execAdd m l s
  | .illegal11 m l => Sys2Proof.Machine.execIllegal11 m l s
  | .illegal12 m l => Sys2Proof.Machine.execIllegal12 m l s
  | .illegal13 m l => Sys2Proof.Machine.execIllegal13 m l s
  | .illegal14 m l => Sys2Proof.Machine.execIllegal14 m l s
  | .illegal15 m l => Sys2Proof.Machine.execIllegal15 m l s

end Sys2Proof.Machine
end

