-- ==== Sys2Proof/Machine/Step.lean ====
section
/-! DEFINITION. One cycle (spec/40_cycle.md R81): Fetch, then Decode, then Execute, in that fixed order. A cycle issued
after Stop is an ordinary one (R84; log entry 4): the run's end is the driver's, in Machine/Session.lean. -/

namespace Sys2Proof.Machine

/-- One cycle (R81): Execute of what Decode reads from the `IR` that Fetch has loaded. -/
def step (s : State) : Host.Outcome State Fault Refusal :=
  exec (decode s.variant (fetch s).ir) (fetch s)

/-- The instruction whose bits are `w`, placed at the line the next Fetch reads, `(IP + 1)[4:0]` (R72). -/
def State.withFetchWord (s : State) (nbits w : Nat) : State :=
  placeAtFetch s (tableWord nbits w)

end Sys2Proof.Machine
end

