-- ==== Sys2Proof/Machine/Session.lean ====
section
/-! DEFINITION. The host's side of the core (spec/10_state.md R25, R26): `reset`, `load`, `cycle`, `observe`, each with
the window in which it is allowed; the run (spec/40_cycle.md R83, R84), which ends at the first Stop or Fault; and the
launch (spec/70_reset_and_hazards.md R142, R143). A whole cycle is one move, so the host never sees a state between
Fetch and Execute (R26). -/

namespace Sys2Proof.Machine

/-- Every line of the store, in rising order: what the loader has to write before launch (R24, R142). -/
def allLines : List Line :=
  (List.range Config.storeLen).map (BitVec.ofNat 5)

/-- An instance of the core as the host has it between two of its moves. -/
inductive Session where
  /-- After `reset` and before the first cycle: the loader's window (R142). `missing` are the lines not loaded since
  reset; when none is missing the store is fully populated, which is the launch (R24, R143; log entry 12). -/
  | loading (missing : List Line) (s : State)
  /-- The latest cycle returned the signal that `s` holds. -/
  | running (s : State)
  /-- The latest cycle ended with `Fault(IllegalOpcode(op))` and left `left`; the outcome is kept until `reset` (R122). -/
  | faulted (op : Opcode) (left : State)
deriving DecidableEq, Repr

/-- The instance as it is created, and again after every `reset`: zeroed, with every line still to load (R23, R140). -/
def Session.created (v : Variant) : Session :=
  .loading allLines (State.initial v)

/-- The Machine State the host finds. -/
def Session.state : Session → State
  | .loading _ s => s
  | .running s => s
  | .faulted _ s => s

/-- `load` is allowed "after `reset` and before the first cycle only" (R25, R142). -/
def Session.mayLoad : Session → Bool
  | .loading _ _ => true
  | .running _ => false
  | .faulted _ _ => false

/-- `cycle` is allowed "after launch; not after `Stop` or `Fault`" (R25, R84, R122): before the first cycle, only where
all 32 words have been loaded since reset (R24, R140, R142). -/
def Session.mayCycle : Session → Bool
  | .loading missing _ => missing.isEmpty
  | .running s => s.signal != some .stop
  | .faulted _ _ => false

/-- The `reset` operation: every element at the value of R23, `VARIANT` unchanged, any time between cycles; "a new load
and launch must follow" (R140). -/
def Session.reset (x : Session) : Session :=
  Session.created x.state.variant

/-- The `load(n, w)` operation: `S[n] <- w` and nothing else, inside the loader's window (R25, R142). -/
def Session.load (n : Line) (w : Word) : Session → Option Session
  | .loading missing s => some (.loading (missing.filter (· ≠ n)) (memWrite s n w))
  | .running _ => none
  | .faulted _ _ => none

/-- The `cycle` operation: one step, where the driver may issue one (R25, R81, R84). -/
def Session.cycle (x : Session) : Option Session :=
  if x.mayCycle then
    match step x.state with
    | .next t => some (.running t)
    | .fault (.illegalOpcode op left) => some (.faulted op left)
    | .refused _ => none
  else none

/-- What `observe` returns (R25): the store, `A`, `IP` and, for test benches, `IR` (decision D13). -/
structure Observation where
  store : List Word
  a : Word
  ip : Word
  ir : Word
deriving DecidableEq, Repr

/-- The `observe` operation (R25): a read between cycles, without side effect. -/
def Session.observe (x : Session) : Observation where
  store := (List.range Config.storeLen).map fun n => x.state.store.read n
  a := x.state.a
  ip := x.state.ip
  ir := x.state.ir

/-- The driver issuing at most `k` cycles and none after the run's end (R83, R84, R122). -/
def Session.drive : Nat → Session → Session
  | 0, x => x
  | k + 1, x =>
    match x.cycle with
    | some y => Session.drive k y
    | none => x

/-- The loader's moves for consecutive words from line `n` on, each a `load` (R142). -/
def Session.loadAll : Nat → List Word → Session → Option Session
  | _, [], x => some x
  | n, w :: rest, x =>
    match x.load (BitVec.ofNat 5 n) w with
    | some y => Session.loadAll (n + 1) rest y
    | none => none

/-- What those moves make of the Machine State. -/
def loadFrom (n : Nat) : List Word → State → State
  | [], s => s
  | w :: rest, s => loadFrom (n + 1) rest (memWrite s (BitVec.ofNat 5 n) w)

/-- The state at launch: reset, and the words of the program image loaded, word `n` into `S[n]` (R24, R62, R143). -/
def launch (v : Variant) (image : List Word) : State :=
  loadFrom 0 image (State.initial v)

end Sys2Proof.Machine
end

