-- ==== Sys2Proof/Machine/Image.lean ====
section
/-! DEFINITION. The bit order of the program-image text and of the display (spec/30_encoding.md R62): the first
character is bit 0. Files, their reading and their error reports are the loader's (spec/00_scope.md R5). -/

namespace Sys2Proof.Machine

/-- The value of one character of a text line; any other is a format error of the loader (R62). -/
def bitOfChar (c : Char) : Option Nat :=
  if c = '0' then some 0 else if c = '1' then some 1 else none

/-- The value of a text line, its first character the least significant bit (R62). -/
def valueOfText : List Char → Option Nat
  | [] => some 0
  | c :: rest =>
    match bitOfChar c, valueOfText rest with
    | some b, some n => some (b + 2 * n)
    | _, _ => none

/-- The word of a text line of "exactly 32 characters" (R62); a line of another length is an error (log entry 13). -/
def wordOfText (cs : List Char) : Option Word :=
  if cs.length = 32 then (valueOfText cs).map (BitVec.ofNat 32) else none

/-- The text of a word, as the display prints it: "first bit first" (R62). -/
def textOfWord (w : Word) : List Char :=
  (List.range 32).map fun j => if w.getLsbD j then '1' else '0'

/-- The words of the text lines in their order, if every one has a word. -/
def wordsOfText : List (List Char) → Option (List Word)
  | [] => some []
  | cs :: rest =>
    match wordOfText cs, wordsOfText rest with
    | some w, some ws => some (w :: ws)
    | _, _ => none

/-- The words of "exactly 32 text lines": text line `n` is word `n` (R62, decision D11). -/
def imageOfText (lines : List (List Char)) : Option (List Word) :=
  if lines.length = Config.storeLen then wordsOfText lines else none

end Sys2Proof.Machine
end

