-- ==== Sys2Proof/Safety.lean ====
section
/-! DEFINITION. The terms claims are stated in: the invariant of the state, the launch premises, a cycle and a run
without fault, and states that agree but for the upper bits of `IP`. -/

namespace Sys2Proof.Machine

/-- The invariant of the model's state: the store is in its canonical form, so every listed line is one of the 32. -/
abbrev State.Inv (s : State) : Prop :=
  s.store.wf

/-- The launch premises on a state (spec/70_reset_and_hazards.md R143 a, c): the three registers 0, no cycle yet; the
store holds any words at all (R143 b). -/
abbrev State.launched (s : State) : Prop :=
  s.a = 0 ∧ s.ip = 0 ∧ s.ir = 0 ∧ s.signal = none

/-- The word the next Fetch loads (R72). -/
def nextWord (s : State) : Word :=
  memRead s (nextLine s)

/-- The Decoded Instruction of the next cycle (R74). -/
def nextInstr (s : State) : Instr :=
  decode s.variant (nextWord s)

/-- The next cycle does not fault: its opcode value is defined for the variant (R77). -/
abbrev State.safe (s : State) : Prop :=
  opcodeDefined s.variant (opcodeField s.variant (nextWord s)) = true

/-- A run so far without fault, the premise R122 asks of claims about completed runs. -/
def Session.unfaulted : Session → Bool
  | .loading _ _ => true
  | .running _ => true
  | .faulted _ _ => false

/-- The two states agree in everything but `IP[31:5]` (spec/10_state.md R14). -/
abbrev State.sameButUpperIp (s t : State) : Prop :=
  s.store = t.store ∧ s.a = t.a ∧ lineOfIp s.ip = lineOfIp t.ip ∧ s.ir = t.ir ∧ s.variant = t.variant ∧
    s.signal = t.signal

end Sys2Proof.Machine
end

