-- ==== Sys2Proof/Certificates/Slice0/Obligations.lean ====
section
/-! DEFINITION. The statements for the provers. Each docstring names the rule of spec/ it formalises. The opcode field of
a word `w` is written as the number `w.toNat / 2 ^ 13 % 16` (bits 16:13) or `w.toNat / 2 ^ 13 % 8` (bits 15:13), its line
as `w.toNat % 32`, its bit 31 as `2 ^ 31 ≤ w.toNat`, and not by the decoder's own functions. -/

open Sys2Proof Sys2Proof.Machine

/-! ### Encoding and decoding -/

/-- R61: the canonical encoding, every ignored bit 0, decodes to the instruction it encodes, for every instruction the
variant's format can express and every operand; the converse does not hold, encoding what was decoded clears exactly the
ignored bits. -/
def Obligations.DecodeOfEncodeIsTheInstruction : Prop :=
  (∀ (v : Variant) (i : Instr), i.wellFormed v = true → decode v (encode i) = i) ∧
  (∀ i : Instr, (encode i).toNat =
    (if i.mode = .immediate then 2 ^ 31 else 0) + i.opcode.toNat * 2 ^ 13 + i.line.toNat) ∧
  (∀ w : Word, encode (decode .original w) = w &&& 0x0000E01F#32) ∧
  (∀ w : Word, encode (decode .extended w) = w &&& 0x8001E01F#32) ∧
  (∀ v : Variant, ∃ w : Word, encode (decode v w) ≠ w)

/-- R53: words that differ only in the bits the format ignores are one instruction, and words that differ in another
bit are two. -/
def Obligations.DecodeSeesExactlyTheFieldBits : Prop :=
  (∀ w w' : Word, decode .original w = decode .original w' ↔ w &&& 0x0000E01F#32 = w' &&& 0x0000E01F#32) ∧
  (∀ w w' : Word, decode .extended w = decode .extended w' ↔ w &&& 0x8001E01F#32 = w' &&& 0x8001E01F#32)

/-- R74: the three fields Decode extracts, in each variant. -/
def Obligations.DecodeExtractsTheFields : Prop :=
  ∀ w : Word,
    (decode .original w).line.toNat = w.toNat % 32 ∧
    (decode .original w).opcode.toNat = w.toNat / 2 ^ 13 % 8 ∧
    (decode .original w).mode = .direct ∧
    (decode .extended w).line.toNat = w.toNat % 32 ∧
    (decode .extended w).opcode.toNat = w.toNat / 2 ^ 13 % 16 ∧
    (decode .extended w).mode = (if 2 ^ 31 ≤ w.toNat then AddrMode.immediate else AddrMode.direct)

/-- Words of the spec's own tables (R56 and the table of 95_test_vectors.md section 2.3), one per family at least. -/
def Obligations.SpecWordsDecodeAsListed : Prop :=
  decode .original 0x00000000 = .jmp .direct 0 ∧ decode .extended 0x80000001 = .jmp .immediate 1 ∧
  decode .original 0x0000400A = .ldn .direct 10 ∧ decode .extended 0x80014005 = .add .immediate 5 ∧
  decode .original 0x80014005 = .ldn .direct 5 ∧ decode .extended 0x80006004 = .sto .immediate 4 ∧
  decode .extended 0x00012019 = .stn .direct 25 ∧ decode .original 0x00012019 = .jrp .direct 25 ∧
  decode .extended 0x0000A01F = .sub5 .direct 31 ∧ decode .extended 0x8000C000 = .skn .immediate 0 ∧
  decode .original 0xFFFFFFFF = .stp .direct 31 ∧ decode .extended 0xFFFFFFFF = .illegal15 .immediate 31 ∧
  decode .extended 0x00016000 = .illegal11 .direct 0 ∧ decode .extended 0x7FFE1FE0 = .jmp .direct 0

/-- R54: what bits 16 and 31 make of one word under the two variants, and that without them it is one instruction. -/
def Obligations.VariantsDifferOnlyInBits16And31 : Prop :=
  ∀ w : Word,
    (w.getLsbD 16 = true → 8 ≤ (decode .extended w).opcode.toNat ∧ (decode .original w).opcode.toNat < 8) ∧
    (w.getLsbD 31 = true → (decode .extended w).mode = .immediate ∧ (decode .original w).mode = .direct) ∧
    (w.getLsbD 16 = false → w.getLsbD 31 = false → decode .original w = decode .extended w)

/-- R59: the undefined values 11 to 15 of the Extended field decode, and Execute of them is the fault and nothing
else, whatever the line, the mode and the state. -/
def Obligations.UndefinedOpcodesDecodeAndFault : Prop :=
  (∀ w : Word, 11 ≤ w.toNat / 2 ^ 13 % 16 → ∀ s : State,
    exec (decode .extended w) s = .fault (.illegalOpcode (BitVec.ofNat 4 (w.toNat / 2 ^ 13)) s)) ∧
  (∀ (m : AddrMode) (l : Line) (s : State),
    exec (.illegal11 m l) s = .fault (.illegalOpcode 11 s) ∧ exec (.illegal12 m l) s = .fault (.illegalOpcode 12 s) ∧
    exec (.illegal13 m l) s = .fault (.illegalOpcode 13 s) ∧ exec (.illegal14 m l) s = .fault (.illegalOpcode 14 s) ∧
    exec (.illegal15 m l) s = .fault (.illegalOpcode 15 s))

/-! ### The shared operations -/

/-- R70: negation and the properties and corner cases the rule lists. -/
def Obligations.NegateIsTwosComplement : Prop :=
  (∀ x : Word, (negate x).toNat = (2 ^ 32 - x.toNat) % 2 ^ 32) ∧ (∀ x : Word, negate (negate x) = x) ∧
  (∀ x : Word, x + negate x = 0) ∧ negate 0 = 0 ∧ negate 0x80000000 = 0x80000000 ∧ negate 1 = 0xFFFFFFFF ∧
  negate 0xFFFFFFFF = 1 ∧ negate 5 = 0xFFFFFFFB

/-- R71, R72, R85: Fetch increments `IP` modulo 2^32, keeping all 32 bits, then loads `IR` from the line of the low
five bits of the new `IP`; nothing else changes. -/
def Obligations.FetchIncrementsThenLoads : Prop :=
  ∀ s : State,
    (fetch s).ip.toNat = (s.ip.toNat + 1) % 2 ^ 32 ∧
    (fetch s).ir = memRead s (BitVec.ofNat 5 (s.ip.toNat + 1)) ∧
    (fetch s).ip.toNat % 32 = (s.ip.toNat % 32 + 1) % 32 ∧
    (fetch s).a = s.a ∧ (∀ l : Line, memRead (fetch s) l = memRead s l) ∧ (fetch s).variant = s.variant

/-- R78: the operand in direct mode, in immediate mode, and in Original, which has no addressing-mode bit. -/
def Obligations.OperandIsStoreWordOrLiteral : Prop :=
  ∀ (l : Line) (s : State),
    operand .direct l s = memRead s l ∧
    (s.variant = .extended → (operand .immediate l s).toNat = l.toNat) ∧
    (s.variant = .original → operand .immediate l s = memRead s l)

/-- R34: after `MemWrite` the line holds the word, and every other word, `A`, `IP` and `IR` are unchanged. -/
def Obligations.MemWriteChangesOneWord : Prop :=
  ∀ (s : State) (l : Line) (v : Word),
    memRead (memWrite s l v) l = v ∧ (∀ l' : Line, l' ≠ l → memRead (memWrite s l v) l' = memRead s l') ∧
    (memWrite s l v).a = s.a ∧ (memWrite s l v).ip = s.ip ∧ (memWrite s l v).ir = s.ir

/-! ### The cycle -/

/-- R81: a cycle is Fetch, Decode and Execute: the word at line `(IP + 1)[4:0]` is decoded under the variant, and the
instruction runs on the state with the incremented `IP` and that word in `IR`. -/
def Obligations.StepRunsTheDecodedInstruction : Prop :=
  (∀ s : State,
    step s = exec (decode s.variant (memRead s (BitVec.ofNat 5 (s.ip.toNat + 1))))
      { s with ip := s.ip + 1, ir := memRead s (BitVec.ofNat 5 (s.ip.toNat + 1)) }) ∧
  (∀ (s : State) (i : Instr), i.wellFormed s.variant = true →
    memRead s (BitVec.ofNat 5 (s.ip.toNat + 1)) = encode i →
      step s = exec i { s with ip := s.ip + 1, ir := encode i })

/-- R77: Execute faults exactly when the opcode value is not one defined for the variant, and then with that value and
the state it was given; otherwise it answers a next state. It never refuses. -/
def Obligations.ExecuteFaultsExactlyOnUndefinedOpcodes : Prop :=
  ∀ (i : Instr) (s : State),
    if i.opcode.toNat < (if s.variant = .original then 8 else 11) then ∃ t, exec i s = .next t
    else exec i s = .fault (.illegalOpcode i.opcode s)

/-- R121: what a faulting cycle leaves: `IP` incremented, `IR` the offending word, `A` and the whole store as before;
and a cycle faults exactly in Extended on bits 16:13 of 11 or more (R120). -/
def Obligations.FaultingCycleLeavesTheFetchState : Prop :=
  ∀ s : State,
    ((∃ r, step s = .fault r) ↔ s.variant = .extended ∧ 11 ≤ (nextWord s).toNat / 2 ^ 13 % 16) ∧
    (∀ (op : Opcode) (left : State), step s = .fault (.illegalOpcode op left) →
      op.toNat = (nextWord s).toNat / 2 ^ 13 % 16 ∧ left.ip = s.ip + 1 ∧ left.ir = nextWord s ∧ left.a = s.a ∧
      (∀ l : Line, memRead left l = memRead s l) ∧ left.variant = s.variant)

/-- From R58, with R77, R83 and R120: in Original every cycle from every state answers a next state, and no run of any
length faults. -/
def Obligations.OriginalNeverFaults : Prop :=
  (∀ s : State, s.variant = .original → ∃ t, step s = .next t) ∧
  (∀ (k : Nat) (x : Session), x.state.variant = .original → x.unfaulted = true →
    (Session.drive k x).unfaulted = true)

/-! ### Control transfer -/

/-- R90: JMP writes all 32 bits of the operand to `IP` and nothing else, in every form; its encodings. -/
def Obligations.JmpWritesOperandToIp : Prop :=
  (∀ (m : AddrMode) (l : Line) (s : State),
    exec (.jmp m l) s = .next { s with ip := operand m l s, signal := some .cont }) ∧
  (∀ l : Line, decode .original (l.setWidth 32) = .jmp .direct l ∧ decode .extended (l.setWidth 32) = .jmp .direct l ∧
    decode .extended (0x80000000#32 ||| l.setWidth 32) = .jmp .immediate l)

/-- R91: JRP subtracts the operand from `IP`, which is its own address, modulo 2^32, and writes nothing else; its
encodings. -/
def Obligations.JrpSubtractsOperandFromIp : Prop :=
  (∀ (m : AddrMode) (l : Line) (s : State),
    exec (.jrp m l) s = .next { s with ip := s.ip - operand m l s, signal := some .cont }) ∧
  (∀ x y : Word, (x - y).toNat = (x.toNat + 2 ^ 32 - y.toNat) % 2 ^ 32) ∧
  (∀ l : Line, decode .original (0x00002000#32 ||| l.setWidth 32) = .jrp .direct l ∧
    decode .extended (0x00002000#32 ||| l.setWidth 32) = .jrp .direct l ∧
    decode .extended (0x80002000#32 ||| l.setWidth 32) = .jrp .immediate l)

/-- R92: SKN increments `IP` once more exactly when bit 31 of `A` is set, and changes nothing else; line and mode have
no effect; its encodings. -/
def Obligations.SknSkipsOnBit31OfA : Prop :=
  (∀ (m : AddrMode) (l : Line) (s : State),
    exec (.skn m l) s =
      .next { s with ip := if 2 ^ 31 ≤ s.a.toNat then s.ip + 1 else s.ip, signal := some .cont }) ∧
  (∀ v : Variant, ∃ m l, decode v 0x0000C000 = .skn m l) ∧ (∃ m l, decode .extended 0x8000C000 = .skn m l)

/-- R93: STP yields Stop and changes nothing, whatever its line and mode; its encodings. -/
def Obligations.StpYieldsStopAndChangesNothing : Prop :=
  (∀ (m : AddrMode) (l : Line) (s : State), exec (.stp m l) s = .next { s with signal := some .stop }) ∧
  (∀ v : Variant, ∃ m l, decode v 0x0000E000 = .stp m l) ∧ (∃ m l, decode .extended 0x8000E000 = .stp m l)

/-- R94: the line executed next, for every instruction, `nextLine s` being the line of the one executed. -/
def Obligations.NextLineFollowsTheTable : Prop :=
  ∀ s t : State, step s = .next t →
    match nextInstr s with
    | .jmp m l => nextLine t = lineOfIp (operand m l s + 1)
    | .jrp m l => nextLine t = nextLine s - lineOfIp (operand m l s) + 1
    | .skn _ _ => nextLine t = if 2 ^ 31 ≤ s.a.toNat then nextLine s + 2 else nextLine s + 1
    | .stp _ _ => (Session.running t).cycle = none
    | _ => nextLine t = nextLine s + 1

/-- R15: the net change of `IP` over a whole cycle, for every instruction, and in a cycle that faults. -/
def Obligations.NetChangeOfIp : Prop :=
  ∀ s : State,
    (∀ t : State, step s = .next t →
      t.ip = match nextInstr s with
        | .jmp m l => operand m l s
        | .jrp m l => s.ip + 1 - operand m l s
        | .skn _ _ => if 2 ^ 31 ≤ s.a.toNat then s.ip + 2 else s.ip + 1
        | _ => s.ip + 1) ∧
    (∀ (op : Opcode) (left : State), step s = .fault (.illegalOpcode op left) → left.ip = s.ip + 1)

/-! ### Accumulator -/

/-- R100: LDN writes the negated operand to `A` and nothing else; its encodings. -/
def Obligations.LdnLoadsNegatedOperand : Prop :=
  (∀ (m : AddrMode) (l : Line) (s : State),
    exec (.ldn m l) s = .next { s with a := negate (operand m l s), signal := some .cont }) ∧
  (∀ l : Line, decode .original (0x00004000#32 ||| l.setWidth 32) = .ldn .direct l ∧
    decode .extended (0x00004000#32 ||| l.setWidth 32) = .ldn .direct l ∧
    decode .extended (0x80004000#32 ||| l.setWidth 32) = .ldn .immediate l)

/-- R101: SUB writes `A - operand` to `A` and nothing else, which equals adding the negation; its encodings. -/
def Obligations.SubSubtractsFromA : Prop :=
  (∀ (m : AddrMode) (l : Line) (s : State),
    exec (.sub m l) s = .next { s with a := s.a - operand m l s, signal := some .cont }) ∧
  (∀ x y : Word, x - y = x + negate y) ∧
  (∀ l : Line, decode .original (0x00008000#32 ||| l.setWidth 32) = .sub .direct l ∧
    decode .extended (0x00008000#32 ||| l.setWidth 32) = .sub .direct l ∧
    decode .extended (0x80008000#32 ||| l.setWidth 32) = .sub .immediate l)

/-- R102: SUB5 is SUB under a second opcode value: the same result on every state and operand; its encodings. -/
def Obligations.Sub5EqualsSub : Prop :=
  (∀ (m : AddrMode) (l : Line) (s : State),
    exec (.sub5 m l) s = .next { s with a := s.a - operand m l s, signal := some .cont } ∧
    exec (.sub5 m l) s = exec (.sub m l) s) ∧
  (∀ l : Line, decode .original (0x0000A000#32 ||| l.setWidth 32) = .sub5 .direct l ∧
    decode .extended (0x0000A000#32 ||| l.setWidth 32) = .sub5 .direct l ∧
    decode .extended (0x8000A000#32 ||| l.setWidth 32) = .sub5 .immediate l)

/-- R103: in Extended LDA writes the operand to `A` and nothing else; its encodings, which are JMP in Original, those
with bit 31 set too. -/
def Obligations.LdaLoadsOperand : Prop :=
  (∀ (m : AddrMode) (l : Line) (s : State), s.variant = .extended →
    exec (.lda m l) s = .next { s with a := operand m l s, signal := some .cont }) ∧
  (∀ l : Line, decode .extended (0x00010000#32 ||| l.setWidth 32) = .lda .direct l ∧
    decode .extended (0x80010000#32 ||| l.setWidth 32) = .lda .immediate l ∧
    decode .original (0x00010000#32 ||| l.setWidth 32) = .jmp .direct l ∧
    decode .original (0x80010000#32 ||| l.setWidth 32) = .jmp .direct l)

/-- R104: in Extended ADD writes `A + operand` to `A` and nothing else; its encodings, which are LDN in Original, those
with bit 31 set too. -/
def Obligations.AddAddsToA : Prop :=
  (∀ (m : AddrMode) (l : Line) (s : State), s.variant = .extended →
    exec (.add m l) s = .next { s with a := s.a + operand m l s, signal := some .cont }) ∧
  (∀ l : Line, decode .extended (0x00014000#32 ||| l.setWidth 32) = .add .direct l ∧
    decode .extended (0x80014000#32 ||| l.setWidth 32) = .add .immediate l ∧
    decode .original (0x00014000#32 ||| l.setWidth 32) = .ldn .direct l ∧
    decode .original (0x80014000#32 ||| l.setWidth 32) = .ldn .direct l)

/-- R105: the arithmetic instructions give the low 32 bits of the exact integer result, and the exact signed result
whenever that fits in 32 bits: ADD in Extended, which alone has it, the others from every state. -/
def Obligations.ArithmeticIsModuloAndSignedWhereItFits : Prop :=
  ∀ (m : AddrMode) (l : Line) (s : State),
    (s.variant = .extended →
      ∃ t, exec (.add m l) s = .next t ∧ t.a.toNat = (s.a.toNat + (operand m l s).toNat) % 2 ^ 32 ∧
        (-2 ^ 31 ≤ s.a.toInt + (operand m l s).toInt → s.a.toInt + (operand m l s).toInt < 2 ^ 31 →
          t.a.toInt = s.a.toInt + (operand m l s).toInt)) ∧
    (∃ t, exec (.sub m l) s = .next t ∧ exec (.sub5 m l) s = .next t ∧
      t.a.toNat = (s.a.toNat + 2 ^ 32 - (operand m l s).toNat) % 2 ^ 32 ∧
      (-2 ^ 31 ≤ s.a.toInt - (operand m l s).toInt → s.a.toInt - (operand m l s).toInt < 2 ^ 31 →
        t.a.toInt = s.a.toInt - (operand m l s).toInt)) ∧
    (∃ t, exec (.ldn m l) s = .next t ∧ t.a.toNat = (2 ^ 32 - (operand m l s).toNat) % 2 ^ 32 ∧
      (-(operand m l s).toInt < 2 ^ 31 → t.a.toInt = -(operand m l s).toInt))

/-! ### Stores -/

/-- R110: STO writes `A` to the line it names, whatever the mode, and nothing else; its encodings. -/
def Obligations.StoStoresAAtItsLine : Prop :=
  (∀ (m : AddrMode) (l : Line) (s : State), ∃ t, exec (.sto m l) s = .next t ∧
    memRead t l = s.a ∧ (∀ l' : Line, l' ≠ l → memRead t l' = memRead s l') ∧
    t.a = s.a ∧ t.ip = s.ip ∧ t.ir = s.ir ∧ t.variant = s.variant ∧ t.signal = some .cont) ∧
  (∀ l : Line, decode .original (0x00006000#32 ||| l.setWidth 32) = .sto .direct l ∧
    decode .extended (0x00006000#32 ||| l.setWidth 32) = .sto .direct l ∧
    decode .extended (0x80006000#32 ||| l.setWidth 32) = .sto .immediate l)

/-- R111: in Extended STN writes the negated `A` to the line it names, whatever the mode, and nothing else, `A` itself
included; its encodings, which are JRP in Original, those with bit 31 set too. -/
def Obligations.StnStoresNegatedAAtItsLine : Prop :=
  (∀ (m : AddrMode) (l : Line) (s : State), s.variant = .extended → ∃ t, exec (.stn m l) s = .next t ∧
    memRead t l = negate s.a ∧ (∀ l' : Line, l' ≠ l → memRead t l' = memRead s l') ∧
    t.a = s.a ∧ t.ip = s.ip ∧ t.ir = s.ir ∧ t.variant = s.variant ∧ t.signal = some .cont) ∧
  (∀ l : Line, decode .extended (0x00012000#32 ||| l.setWidth 32) = .stn .direct l ∧
    decode .extended (0x80012000#32 ||| l.setWidth 32) = .stn .immediate l ∧
    decode .original (0x00012000#32 ||| l.setWidth 32) = .jrp .direct l ∧
    decode .original (0x80012000#32 ||| l.setWidth 32) = .jrp .direct l)

/-- R44: a store is seen by the very next fetch, and does not change the instruction being executed. -/
def Obligations.StoreIsSeenByTheNextFetch : Prop :=
  ∀ (m : AddrMode) (l : Line) (s : State),
    (nextInstr s = .sto m l → ∃ t, step s = .next t ∧ t.ir = nextWord s ∧ memRead t l = s.a ∧
      (nextLine t = l → (fetch t).ir = s.a ∧ step t = exec (decode s.variant s.a) (fetch t))) ∧
    (nextInstr s = .stn m l → ∃ t, step s = .next t ∧ t.ir = nextWord s ∧ memRead t l = negate s.a ∧
      (nextLine t = l → (fetch t).ir = negate s.a ∧ step t = exec (decode s.variant (negate s.a)) (fetch t)))

/-! ### Rules of the whole machine -/

/-- R11: over a whole cycle, only STO and STN change a store word, and only the one they name. -/
def Obligations.OnlyStoAndStnWriteTheStore : Prop :=
  ∀ s t : State, step s = .next t → ∀ l : Line, memRead t l ≠ memRead s l →
    ∃ m, nextInstr s = .sto m l ∨ nextInstr s = .stn m l

/-- R12: over a whole cycle, only LDN, SUB, SUB5, LDA and ADD change `A`. -/
def Obligations.OnlyAccumulatorInstructionsWriteA : Prop :=
  ∀ s t : State, step s = .next t → t.a ≠ s.a → ∃ m l,
    nextInstr s = .ldn m l ∨ nextInstr s = .sub m l ∨ nextInstr s = .sub5 m l ∨ nextInstr s = .lda m l ∨
      nextInstr s = .add m l

/-- R17: only Fetch writes `IR`: after every cycle, faulting or not, it holds the word fetched in that cycle. -/
def Obligations.IrHoldsTheFetchedWord : Prop :=
  ∀ s : State, (∀ t, step s = .next t → t.ir = nextWord s) ∧
    (∀ op left, step s = .fault (.illegalOpcode op left) → left.ir = nextWord s)

/-- R82: Stop is produced by STP and by nothing else, and every other cycle that completes returns Continue. -/
def Obligations.StopIsProducedByStpAlone : Prop :=
  ∀ s t : State, step s = .next t →
    (t.signal = some .stop ↔ ∃ m l, nextInstr s = .stp m l) ∧
    (t.signal = some .cont ↔ ¬ ∃ m l, nextInstr s = .stp m l)

/-- R9, R73, R75: a cycle is total: from every state it answers a next state or the one fault, never a refusal; and it
answers a next state exactly where the state is safe. -/
def Obligations.CycleIsTotal : Prop :=
  ∀ s : State, ((∃ t, step s = .next t) ∨ (∃ op left, step s = .fault (.illegalOpcode op left))) ∧
    (s.safe ↔ ∃ t, step s = .next t)

/-- R21, R82: the model's own field `signal` (log entry 3) is no state of the machine: no cycle reads it. -/
def Obligations.SignalIsNeverRead : Prop :=
  ∀ (s t : State) (x : Option Signal), step s = .next t → step { s with signal := x } = .next t

/-- R14: `IP[31:5]` reaches nothing but itself: states that agree in everything else step to states that do, with the
same signal or the same fault. -/
def Obligations.UpperIpBitsReachNothingElse : Prop :=
  ∀ s s' : State, s.sameButUpperIp s' →
    (∀ t, step s = .next t → ∃ t', step s' = .next t' ∧ t.sameButUpperIp t') ∧
    (∀ op left, step s = .fault (.illegalOpcode op left) →
      ∃ left', step s' = .fault (.illegalOpcode op left') ∧ left.sameButUpperIp left')

/-- R149: where the word fetched has bits 16 and 31 clear, the cycle is the same under both variants. -/
def Obligations.VariantsAgreeOnWordsWithoutBits16And31 : Prop :=
  ∀ s : State, (nextWord s).getLsbD 16 = false → (nextWord s).getLsbD 31 = false →
    ∃ t : State, step { s with variant := .original } = .next { t with variant := .original } ∧
      step { s with variant := .extended } = .next { t with variant := .extended }

/-! ### Invariants -/

/-- The store's canonical form (log entry 7), which says that every listed line is one of the 32 (R30), is kept by every
cycle from every state that has it, and held by the state a fault leaves. -/
def Obligations.CycleKeepsTheStoreCanonical : Prop :=
  ∀ s : State, s.Inv → (∀ t, step s = .next t → t.Inv) ∧
    (∀ op left, step s = .fault (.illegalOpcode op left) → left.Inv)

/-- The same form is kept by every move of the host and by every number of cycles. -/
def Obligations.HostMovesKeepTheStoreCanonical : Prop :=
  ∀ x : Session, x.state.Inv →
    (∀ k : Nat, (Session.drive k x).state.Inv) ∧ x.reset.state.Inv ∧
    (∀ (n : Line) (w : Word) (y : Session), x.load n w = some y → y.state.Inv)

/-- The invariant holds at reset, in either variant and at the reset state the host runs from. -/
def Obligations.ResetStoreIsCanonical : Prop :=
  (∀ v : Variant, (State.initial v).Inv) ∧ State.reset.Inv

/-- R23: at reset every store word, `A`, `IP` and `IR` are 0, in either variant, and the first instruction executed is at
line 1; so it is at the reset state the host runs from. -/
def Obligations.ResetZeroesTheMachineState : Prop :=
  (∀ v : Variant, (∀ l : Line, memRead (State.initial v) l = 0) ∧ (State.initial v).a = 0 ∧
    (State.initial v).ip = 0 ∧ (State.initial v).ir = 0 ∧ nextLine (State.initial v) = 1) ∧
  (∀ l : Line, memRead State.reset l = 0) ∧ State.reset.a = 0 ∧ State.reset.ip = 0 ∧ State.reset.ir = 0 ∧
  nextLine State.reset = 1

/-- R3: no cycle, no number of cycles, no host move and no reset changes the variant. -/
def Obligations.VariantNeverChanges : Prop :=
  (∀ s t : State, step s = .next t → t.variant = s.variant) ∧
  (∀ (k : Nat) (x : Session), (Session.drive k x).state.variant = x.state.variant) ∧
  (∀ (x y : Session) (n : Line) (w : Word), x.load n w = some y → y.state.variant = x.state.variant) ∧
  (∀ x : Session, x.reset.state.variant = x.state.variant)

/-! ### Host interface and launch -/

/-- R25, R142: the loader writes one store word and nothing else, after reset and before the first cycle only: not
after a cycle that completed, not after one that faulted. -/
def Obligations.LoaderWritesOnlyBeforeTheFirstCycle : Prop :=
  (∀ (missing : List Line) (s : State) (n : Line) (w : Word), ∃ missing' t,
    Session.load n w (.loading missing s) = some (.loading missing' t) ∧
    memRead t n = w ∧ (∀ l : Line, l ≠ n → memRead t l = memRead s l) ∧ t.a = s.a ∧ t.ip = s.ip ∧ t.ir = s.ir ∧
    t.variant = s.variant ∧ t.signal = s.signal ∧ (∀ l : Line, l ∈ missing' ↔ l ∈ missing ∧ l ≠ n)) ∧
  (∀ (x y : Session) (n : Line) (w : Word), x.cycle = some y → y.load n w = none) ∧
  (∀ (k : Nat) (x : Session) (n : Line) (w : Word), x.load n w = none → (Session.drive k x).load n w = none)

/-- R25, with R24, R140 and R142: a cycle is allowed after launch only. Where a line is still to load the driver has no
cycle and no number of attempts moves the machine; after reset every line is still to load; where none is left a cycle
is allowed. That the launch is read off the lines loaded since reset is log entry 12. -/
def Obligations.NoCycleBeforeLaunch : Prop :=
  (∀ (k : Nat) (missing : List Line) (s : State), missing ≠ [] →
    (Session.loading missing s).cycle = none ∧ Session.drive k (.loading missing s) = .loading missing s) ∧
  (∀ v : Variant, (∀ l : Line, l ∈ allLines) ∧ Session.created v = .loading allLines (State.initial v) ∧
    (Session.created v).cycle = none) ∧
  (∀ s : State, ∃ y, (Session.loading [] s).cycle = some y)

/-- R84, R122: after Stop and after a fault the driver has no cycle left and no number of attempts moves the machine;
before that a run always has one. -/
def Obligations.NoCycleAfterTheRunEnds : Prop :=
  (∀ (k : Nat) (s : State), s.signal = some .stop →
    (Session.running s).cycle = none ∧ Session.drive k (.running s) = .running s) ∧
  (∀ (k : Nat) (op : Opcode) (s : State),
    (Session.faulted op s).cycle = none ∧ Session.drive k (.faulted op s) = .faulted op s) ∧
  (∀ s : State, s.signal ≠ some .stop → ∃ y, (Session.running s).cycle = some y)

/-- R140: the host's reset puts every element at 0 from every session, after Stop or a fault too, and keeps the variant;
no cycle is allowed until a new load and launch have followed: loading any image of 32 words gives its launch state, and
a cycle is allowed there. That the launch is read off the lines loaded since reset is log entry 12. -/
def Obligations.HostResetZeroesFromEveryState : Prop :=
  ∀ x : Session,
    (∀ l : Line, memRead x.reset.state l = 0) ∧ x.reset.state.a = 0 ∧ x.reset.state.ip = 0 ∧ x.reset.state.ir = 0 ∧
    x.reset.state.variant = x.state.variant ∧ x.reset.cycle = none ∧
    (∀ image : List Word, image.length = 32 → ∃ y, x.reset.loadAll 0 image = some y ∧
      y.state = launch x.state.variant image ∧ ∃ z, y.cycle = some z)

/-- R25: `observe` shows the 32 store words, `A`, `IP` and `IR` as they are. -/
def Obligations.ObserveShowsTheMachineState : Prop :=
  ∀ x : Session, x.observe.store.length = 32 ∧
    (∀ l : Line, x.observe.store[l.toNat]? = some (memRead x.state l)) ∧
    x.observe.a = x.state.a ∧ x.observe.ip = x.state.ip ∧ x.observe.ir = x.state.ir

/-- R24: at launch the store holds the 32 words of the program image, word `n` in line `n`, and the three registers are
0; the store is canonical. -/
def Obligations.LaunchHoldsTheImage : Prop :=
  ∀ (v : Variant) (image : List Word), image.length = 32 →
    (launch v image).launched ∧ (launch v image).variant = v ∧ (launch v image).Inv ∧
    (∀ l : Line, some (memRead (launch v image) l) = image[l.toNat]?)

/-- R144: with `IP` 0, as at every launch, the cycle executes the word at line 1, not line 0; and only an `IP` whose low
five bits are 31 leads to line 0. -/
def Obligations.FirstInstructionIsAtLineOne : Prop :=
  (∀ s : State, s.ip = 0 → (fetch s).ir = memRead s 1 ∧ (fetch s).ip = 1 ∧
    step s = exec (decode s.variant (memRead s 1)) { s with ip := 1, ir := memRead s 1 }) ∧
  (∀ (v : Variant) (image : List Word), image.length = 32 → (launch v image).ip = 0) ∧
  (∀ s : State, nextLine s = 0 ↔ s.ip.toNat % 32 = 31)

/-- R62: in a text line character `j` is bit `j` of the word; the text of a word reads back as the word, and a line that
has a word is the text of it. -/
def Obligations.TextLineIsBitZeroFirst : Prop :=
  (∀ w : Word, (textOfWord w).length = 32 ∧
    (∀ j : Nat, j < 32 → (textOfWord w)[j]? = some (if w.getLsbD j then '1' else '0')) ∧
    wordOfText (textOfWord w) = some w) ∧
  (∀ (cs : List Char) (w : Word), wordOfText cs = some w → textOfWord w = cs)

/-- R62: text lines make an image exactly where they are 32 and each of them has a word; the image then has 32 words,
and text line `n` is word `n`. -/
def Obligations.ImageLineIsTheWordOfItsIndex : Prop :=
  (∀ lines : List (List Char), (∃ ws, imageOfText lines = some ws) ↔
    lines.length = 32 ∧ ∀ cs ∈ lines, ∃ w, wordOfText cs = some w) ∧
  (∀ (lines : List (List Char)) (ws : List Word), imageOfText lines = some ws →
    ws.length = 32 ∧ ∀ n : Nat, (lines[n]?).bind wordOfText = ws[n]?)
end

