-- ==== Sys2Proof/Laws/PerInstr.lean ====
section
/-! SUPPORT. The fields of a canonical word (spec/30_encoding.md R61), and the family `EncodeFields`: for every
instruction, the Extended fields of its word are the instruction's own. -/

namespace Sys2Proof

theorem lineField_encodeFields (op : Opcode) (m : AddrMode) (l : Line) : lineField (encodeFields op m l) = l := by
  cases m <;> revert op l <;> decide

theorem opcodeField_extended_encodeFields (op : Opcode) (m : AddrMode) (l : Line) :
    opcodeField .extended (encodeFields op m l) = op := by
  cases m <;> revert op l <;> decide

theorem opcodeField_original_encodeFields (op : Opcode) (m : AddrMode) (l : Line) :
    opcodeField .original (encodeFields op m l) = op &&& 7 := by
  cases m <;> revert op l <;> decide

theorem modeField_extended_encodeFields (op : Opcode) (m : AddrMode) (l : Line) :
    modeField .extended (encodeFields op m l) = m := by
  cases m <;> revert op l <;> decide

/-- What the family says of an instruction: the three Extended fields of its canonical word. -/
def Laws.EncodeFields.Statement (i : Instr) : Prop :=
  opcodeField .extended (encode i) = i.opcode ∧ modeField .extended (encode i) = i.mode ∧ lineField (encode i) = i.line

theorem Laws.EncodeFields.all (i : Instr) : Laws.EncodeFields.Statement i :=
  ⟨opcodeField_extended_encodeFields _ _ _, modeField_extended_encodeFields _ _ _, lineField_encodeFields _ _ _⟩

theorem Laws.EncodeFields.jmp (m : AddrMode) (l : Line) : Laws.EncodeFields.Statement (.jmp m l) := Laws.EncodeFields.all _
theorem Laws.EncodeFields.jrp (m : AddrMode) (l : Line) : Laws.EncodeFields.Statement (.jrp m l) := Laws.EncodeFields.all _
theorem Laws.EncodeFields.ldn (m : AddrMode) (l : Line) : Laws.EncodeFields.Statement (.ldn m l) := Laws.EncodeFields.all _
theorem Laws.EncodeFields.sto (m : AddrMode) (l : Line) : Laws.EncodeFields.Statement (.sto m l) := Laws.EncodeFields.all _
theorem Laws.EncodeFields.sub (m : AddrMode) (l : Line) : Laws.EncodeFields.Statement (.sub m l) := Laws.EncodeFields.all _
theorem Laws.EncodeFields.sub5 (m : AddrMode) (l : Line) : Laws.EncodeFields.Statement (.sub5 m l) := Laws.EncodeFields.all _
theorem Laws.EncodeFields.skn (m : AddrMode) (l : Line) : Laws.EncodeFields.Statement (.skn m l) := Laws.EncodeFields.all _
theorem Laws.EncodeFields.stp (m : AddrMode) (l : Line) : Laws.EncodeFields.Statement (.stp m l) := Laws.EncodeFields.all _
theorem Laws.EncodeFields.lda (m : AddrMode) (l : Line) : Laws.EncodeFields.Statement (.lda m l) := Laws.EncodeFields.all _
theorem Laws.EncodeFields.stn (m : AddrMode) (l : Line) : Laws.EncodeFields.Statement (.stn m l) := Laws.EncodeFields.all _
theorem Laws.EncodeFields.add (m : AddrMode) (l : Line) : Laws.EncodeFields.Statement (.add m l) := Laws.EncodeFields.all _
theorem Laws.EncodeFields.illegal11 (m : AddrMode) (l : Line) : Laws.EncodeFields.Statement (.illegal11 m l) := Laws.EncodeFields.all _
theorem Laws.EncodeFields.illegal12 (m : AddrMode) (l : Line) : Laws.EncodeFields.Statement (.illegal12 m l) := Laws.EncodeFields.all _
theorem Laws.EncodeFields.illegal13 (m : AddrMode) (l : Line) : Laws.EncodeFields.Statement (.illegal13 m l) := Laws.EncodeFields.all _
theorem Laws.EncodeFields.illegal14 (m : AddrMode) (l : Line) : Laws.EncodeFields.Statement (.illegal14 m l) := Laws.EncodeFields.all _
theorem Laws.EncodeFields.illegal15 (m : AddrMode) (l : Line) : Laws.EncodeFields.Statement (.illegal15 m l) := Laws.EncodeFields.all _

end Sys2Proof
end

