-- ==== Sys2Proof/Laws/Decode.lean ====
section
/-! SUPPORT. The fields of a word as numbers (spec/30_encoding.md R51, R52), and what `Instr.ofFields` makes of them. -/

namespace Sys2Proof

theorem Instr.ofFields_fields (op : Opcode) (m : AddrMode) (l : Line) :
    (Instr.ofFields op m l).opcode = op ∧ (Instr.ofFields op m l).mode = m ∧ (Instr.ofFields op m l).line = l := by
  obtain ⟨⟨n, hn⟩⟩ := op
  interval_cases n <;> exact ⟨rfl, rfl, rfl⟩

/-- The three fields of the Decoded Instruction are the three fields of the word (R74). -/
@[simp] theorem decode_opcode (v : Variant) (w : Word) : (decode v w).opcode = opcodeField v w :=
  (Instr.ofFields_fields _ _ _).1
@[simp] theorem decode_mode (v : Variant) (w : Word) : (decode v w).mode = modeField v w :=
  (Instr.ofFields_fields _ _ _).2.1
@[simp] theorem decode_line (v : Variant) (w : Word) : (decode v w).line = lineField w :=
  (Instr.ofFields_fields _ _ _).2.2

/-- An instruction is determined by its three fields (R20). -/
theorem Instr.ofFields_self (i : Instr) : Instr.ofFields i.opcode i.mode i.line = i := by
  cases i <;> rfl

theorem lineField_toNat (w : Word) : (lineField w).toNat = w.toNat % 32 := by
  have h := Nat.and_two_pow_sub_one_eq_mod w.toNat 5
  simp only [lineField, BitVec.toNat_setWidth, BitVec.toNat_and, BitVec.toNat_ofNat]
  norm_num at h ⊢
  rw [h, Nat.mod_mod]

theorem opcodeField_extended_toNat (w : Word) : (opcodeField .extended w).toNat = w.toNat / 2 ^ 13 % 16 := by
  have h := Nat.and_two_pow_sub_one_eq_mod (w.toNat / 2 ^ 13) 4
  simp only [opcodeField, BitVec.toNat_setWidth, BitVec.toNat_and, BitVec.toNat_ushiftRight,
    Nat.shiftRight_eq_div_pow, BitVec.toNat_ofNat]
  norm_num at h ⊢
  rw [h, Nat.mod_mod]

theorem opcodeField_original_toNat (w : Word) : (opcodeField .original w).toNat = w.toNat / 2 ^ 13 % 8 := by
  have h := Nat.and_two_pow_sub_one_eq_mod (w.toNat / 2 ^ 13) 3
  simp only [opcodeField, BitVec.toNat_setWidth, BitVec.toNat_and, BitVec.toNat_ushiftRight,
    Nat.shiftRight_eq_div_pow, BitVec.toNat_ofNat]
  norm_num at h ⊢
  rw [h]
  omega

theorem getLsbD_31 (w : Word) : w.getLsbD 31 = decide (2 ^ 31 ≤ w.toNat) := by
  have h := BitVec.msb_eq_decide w
  rw [BitVec.msb_eq_getLsbD_last] at h
  simpa using h

theorem modeField_extended (w : Word) :
    modeField .extended w = if 2 ^ 31 ≤ w.toNat then AddrMode.immediate else AddrMode.direct := by
  simp only [modeField, getLsbD_31, decide_eq_true_eq]

end Sys2Proof
end

