-- ==== Sys2Proof/Laws/State.lean ====
section
/-! SUPPORT. What each operation over the state does to each field, so that no later proof unfolds a record update. -/

namespace Sys2Proof.Machine

@[simp] theorem memWrite_store (s : State) (l : Line) (v : Word) : (memWrite s l v).store = s.store.write l.toNat v := rfl
@[simp] theorem memWrite_a (s : State) (l : Line) (v : Word) : (memWrite s l v).a = s.a := rfl
@[simp] theorem memWrite_ip (s : State) (l : Line) (v : Word) : (memWrite s l v).ip = s.ip := rfl
@[simp] theorem memWrite_ir (s : State) (l : Line) (v : Word) : (memWrite s l v).ir = s.ir := rfl
@[simp] theorem memWrite_variant (s : State) (l : Line) (v : Word) : (memWrite s l v).variant = s.variant := rfl
@[simp] theorem memWrite_signal (s : State) (l : Line) (v : Word) : (memWrite s l v).signal = s.signal := rfl

@[simp] theorem writeA_store (s : State) (v : Word) : (writeA s v).store = s.store := rfl
@[simp] theorem writeA_a (s : State) (v : Word) : (writeA s v).a = v := rfl
@[simp] theorem writeA_ip (s : State) (v : Word) : (writeA s v).ip = s.ip := rfl
@[simp] theorem writeA_ir (s : State) (v : Word) : (writeA s v).ir = s.ir := rfl
@[simp] theorem writeA_variant (s : State) (v : Word) : (writeA s v).variant = s.variant := rfl
@[simp] theorem writeA_signal (s : State) (v : Word) : (writeA s v).signal = s.signal := rfl

@[simp] theorem writeIp_store (s : State) (v : Word) : (writeIp s v).store = s.store := rfl
@[simp] theorem writeIp_a (s : State) (v : Word) : (writeIp s v).a = s.a := rfl
@[simp] theorem writeIp_ip (s : State) (v : Word) : (writeIp s v).ip = v := rfl
@[simp] theorem writeIp_ir (s : State) (v : Word) : (writeIp s v).ir = s.ir := rfl
@[simp] theorem writeIp_variant (s : State) (v : Word) : (writeIp s v).variant = s.variant := rfl
@[simp] theorem writeIp_signal (s : State) (v : Word) : (writeIp s v).signal = s.signal := rfl

@[simp] theorem writeSignal_store (s : State) (sig : Signal) : (writeSignal s sig).store = s.store := rfl
@[simp] theorem writeSignal_a (s : State) (sig : Signal) : (writeSignal s sig).a = s.a := rfl
@[simp] theorem writeSignal_ip (s : State) (sig : Signal) : (writeSignal s sig).ip = s.ip := rfl
@[simp] theorem writeSignal_ir (s : State) (sig : Signal) : (writeSignal s sig).ir = s.ir := rfl
@[simp] theorem writeSignal_variant (s : State) (sig : Signal) : (writeSignal s sig).variant = s.variant := rfl
@[simp] theorem writeSignal_signal (s : State) (sig : Signal) : (writeSignal s sig).signal = some sig := rfl

@[simp] theorem fetch_store (s : State) : (fetch s).store = s.store := rfl
@[simp] theorem fetch_a (s : State) : (fetch s).a = s.a := rfl
@[simp] theorem fetch_ip (s : State) : (fetch s).ip = s.ip + 1 := rfl
@[simp] theorem fetch_ir (s : State) : (fetch s).ir = memRead s (nextLine s) := rfl
@[simp] theorem fetch_variant (s : State) : (fetch s).variant = s.variant := rfl
@[simp] theorem fetch_signal (s : State) : (fetch s).signal = s.signal := rfl

@[simp] theorem initial_store (v : Variant) : (State.initial v).store = [] := rfl
@[simp] theorem initial_a (v : Variant) : (State.initial v).a = 0 := rfl
@[simp] theorem initial_ip (v : Variant) : (State.initial v).ip = 0 := rfl
@[simp] theorem initial_ir (v : Variant) : (State.initial v).ir = 0 := rfl
@[simp] theorem initial_variant (v : Variant) : (State.initial v).variant = v := rfl
@[simp] theorem initial_signal (v : Variant) : (State.initial v).signal = none := rfl

/-! Reading the store looks at the store alone. -/

theorem memRead_congr {s t : State} (h : s.store = t.store) (l : Line) : memRead s l = memRead t l := by
  simp only [memRead, h]

@[simp] theorem memRead_fetch (s : State) (l : Line) : memRead (fetch s) l = memRead s l := rfl
@[simp] theorem memRead_writeA (s : State) (v : Word) (l : Line) : memRead (writeA s v) l = memRead s l := rfl
@[simp] theorem memRead_writeIp (s : State) (v : Word) (l : Line) : memRead (writeIp s v) l = memRead s l := rfl
@[simp] theorem memRead_writeSignal (s : State) (sig : Signal) (l : Line) :
    memRead (writeSignal s sig) l = memRead s l := rfl

/-- An operand is the same after Fetch as before it: Fetch leaves the store and the variant alone (R72). -/
@[simp] theorem operand_fetch (m : AddrMode) (l : Line) (s : State) : operand m l (fetch s) = operand m l s := rfl

end Sys2Proof.Machine
end

