-- ==== Sys2Proof/Laws/Store.lean ====
section
/-! SUPPORT. The laws of the store: what a read sees after a write, at the same line and at another, in any list of
entries, and that every operation keeps the canonical form. -/

namespace Sys2Proof.Machine

/-! ### Reads -/

theorem Memory.read_remove_same (m : Memory) (n : Nat) : (m.remove n).read n = unlisted := by
  induction m with
  | nil => rfl
  | cons c rest ih =>
    obtain ⟨k, w⟩ := c
    by_cases h : k = n
    · simpa [Memory.remove, h] using ih
    · simpa [Memory.remove, Memory.read, h] using ih

theorem Memory.read_remove_other (m : Memory) {n p : Nat} (hp : p ≠ n) : (m.remove n).read p = m.read p := by
  induction m with
  | nil => rfl
  | cons c rest ih =>
    obtain ⟨k, w⟩ := c
    by_cases h : k = n
    · have : k ≠ p := fun e => hp (e.symm.trans h)
      simpa [Memory.remove, Memory.read, h, this, Ne.symm hp] using ih
    · simp only [Memory.remove, Memory.read, h, if_false, ih]

theorem Memory.mem_remove {m : Memory} {n : Nat} {c : Cell} : c ∈ m.remove n ↔ c ∈ m ∧ c.1 ≠ n := by
  induction m with
  | nil => simp [Memory.remove]
  | cons d rest ih =>
    obtain ⟨k, w⟩ := d
    by_cases h : k = n
    · simp only [Memory.remove, h, if_true, ih, List.mem_cons]
      constructor
      · exact fun ⟨a, b⟩ => ⟨.inr a, b⟩
      · rintro ⟨rfl | a, b⟩
        · exact absurd rfl b
        · exact ⟨a, b⟩
    · simp only [Memory.remove, h, if_false, List.mem_cons, ih]
      constructor
      · rintro (rfl | ⟨a, b⟩)
        · exact ⟨.inl rfl, h⟩
        · exact ⟨.inr a, b⟩
      · rintro ⟨rfl | a, b⟩
        · exact .inl rfl
        · exact .inr ⟨a, b⟩

theorem Memory.mem_place {m : Memory} {n : Nat} {v : Word} {c : Cell} : c ∈ m.place n v ↔ c = (n, v) ∨ c ∈ m := by
  induction m with
  | nil => simp [Memory.place]
  | cons d rest ih =>
    obtain ⟨k, w⟩ := d
    by_cases h : n < k
    · simp [Memory.place, h]
    · simp only [Memory.place, h, if_false, List.mem_cons, ih]
      tauto

theorem Memory.read_place_same {m : Memory} {n : Nat} (v : Word) (h : ∀ c ∈ m, c.1 ≠ n) :
    (m.place n v).read n = v := by
  induction m with
  | nil => simp [Memory.place, Memory.read]
  | cons d rest ih =>
    obtain ⟨k, w⟩ := d
    have hk : k ≠ n := h (k, w) List.mem_cons_self
    have hr : ∀ c ∈ rest, c.1 ≠ n := fun c hc => h c (List.mem_cons_of_mem _ hc)
    by_cases hlt : n < k
    · simp [Memory.place, Memory.read, hlt]
    · simp only [Memory.place, Memory.read, hlt, hk, if_false, ih hr]

theorem Memory.read_place_other (m : Memory) {n p : Nat} (v : Word) (hp : p ≠ n) :
    (m.place n v).read p = m.read p := by
  induction m with
  | nil => simp [Memory.place, Memory.read, Ne.symm hp]
  | cons d rest ih =>
    obtain ⟨k, w⟩ := d
    by_cases hlt : n < k
    · simp [Memory.place, Memory.read, hlt, Ne.symm hp]
    · simp only [Memory.place, Memory.read, hlt, if_false, ih]

/-- A read of the line written gives the word written, whatever the list (R34). -/
@[simp] theorem Memory.read_write_same (m : Memory) (n : Nat) (v : Word) : (m.write n v).read n = v := by
  unfold Memory.write
  split
  next h => rw [Memory.read_remove_same, h]
  next => exact Memory.read_place_same v fun c hc => (Memory.mem_remove.mp hc).2

/-- A read of another line gives what it gave before, whatever the list (R34). -/
theorem Memory.read_write_other (m : Memory) {n p : Nat} (v : Word) (hp : p ≠ n) :
    (m.write n v).read p = m.read p := by
  unfold Memory.write
  split
  · exact Memory.read_remove_other m hp
  · rw [Memory.read_place_other _ v hp, Memory.read_remove_other m hp]

theorem line_toNat_ne {l l' : Line} (h : l' ≠ l) : l'.toNat ≠ l.toNat :=
  fun e => h (BitVec.eq_of_toNat_eq e)

/-! ### The canonical form -/

theorem Memory.wf_remove {m : Memory} (n : Nat) (h : m.wf) : (m.remove n).wf := by
  refine ⟨?_, fun c hc => h.2 c (Memory.mem_remove.mp hc).1⟩
  obtain ⟨hs, -⟩ := h
  induction m with
  | nil => exact List.Pairwise.nil
  | cons d rest ih =>
    obtain ⟨k, w⟩ := d
    rw [List.pairwise_cons] at hs
    by_cases hk : k = n
    · simpa [Memory.remove, hk] using ih hs.2
    · simp only [Memory.remove, hk, if_false, List.pairwise_cons]
      exact ⟨fun c hc => hs.1 c (Memory.mem_remove.mp hc).1, ih hs.2⟩

theorem Memory.wf_place {m : Memory} {n : Nat} {v : Word} (h : m.wf) (hn : n < Config.storeLen) (hv : v ≠ unlisted)
    (hm : ∀ c ∈ m, c.1 ≠ n) : (m.place n v).wf := by
  constructor
  · obtain ⟨hs, -⟩ := h
    induction m with
    | nil => exact List.pairwise_singleton _ _
    | cons d rest ih =>
      obtain ⟨k, w⟩ := d
      have hr : ∀ c ∈ rest, c.1 ≠ n := fun c hc => hm c (List.mem_cons_of_mem _ hc)
      have hk : k ≠ n := hm (k, w) List.mem_cons_self
      obtain ⟨hfirst, hrest⟩ := List.pairwise_cons.mp hs
      by_cases hlt : n < k
      · simp only [Memory.place, hlt, if_true]
        refine List.pairwise_cons.mpr ⟨?_, hs⟩
        intro c hc
        rcases List.mem_cons.mp hc with rfl | hc
        · exact hlt
        · exact lt_trans hlt (hfirst c hc)
      · simp only [Memory.place, hlt, if_false]
        refine List.pairwise_cons.mpr ⟨?_, ih hr hrest⟩
        intro c hc
        rcases Memory.mem_place.mp hc with rfl | hc
        · exact lt_of_le_of_ne (not_lt.mp hlt) hk
        · exact hfirst c hc
  · intro c hc
    rcases Memory.mem_place.mp hc with rfl | hc
    · exact ⟨hn, hv⟩
    · exact h.2 c hc

/-- A write to one of the 32 lines keeps the canonical form. -/
theorem Memory.wf_write {m : Memory} {n : Nat} (v : Word) (h : m.wf) (hn : n < Config.storeLen) : (m.write n v).wf := by
  unfold Memory.write
  split
  next => exact Memory.wf_remove n h
  next hv => exact Memory.wf_place (Memory.wf_remove n h) hn hv fun c hc => (Memory.mem_remove.mp hc).2

theorem line_lt_storeLen (l : Line) : l.toNat < Config.storeLen := l.isLt

/-- `MemWrite` keeps the canonical form, at every line (R34, R35). -/
theorem memWrite_wf {s : State} (l : Line) (v : Word) (h : s.store.wf) : (memWrite s l v).store.wf :=
  Memory.wf_write v h (line_lt_storeLen l)

/-- The loader keeps the canonical form. -/
theorem loadedAtFetch_wf {s : State} (w : Word) (h : s.store.wf) : (placeAtFetch s w).store.wf :=
  memWrite_wf _ w h

/-- The reset store is in the canonical form (R23). -/
theorem initial_wf (v : Variant) : (State.initial v).store.wf :=
  ⟨List.Pairwise.nil, fun _ h => absurd h List.not_mem_nil⟩

end Sys2Proof.Machine
end

