-- ==== Sys2Proof/Laws/Execute.lean ====
section
/-! SUPPORT. Everything the shared part of Execute can do, once: the check of the opcode, the body, the signal; and what
an operand is in each form. The provers cite these instead of unfolding. -/

namespace Sys2Proof.Machine

/-- On a defined opcode value Execute answers the body's state with the signal. -/
theorem execute_defined {op : Opcode} {s : State} (sig : Signal) (body : State → State)
    (h : opcodeDefined s.variant op = true) : execute op sig body s = .next (writeSignal (body s) sig) := by
  simp only [execute, h, if_true]

/-- On an undefined opcode value Execute raises the fault with the state it was given (R121). -/
theorem execute_undefined {op : Opcode} {s : State} (sig : Signal) (body : State → State)
    (h : opcodeDefined s.variant op = false) : execute op sig body s = .fault (.illegalOpcode op s) := by
  simp only [execute, h, raiseIllegalOpcode, Bool.false_eq_true, if_false]

/-- The inversion of Execute: if it answers a next state, the opcode was defined and the state is the body's. -/
theorem execute_next {op : Opcode} {sig : Signal} {body : State → State} {s t : State}
    (h : execute op sig body s = .next t) : opcodeDefined s.variant op = true ∧ t = writeSignal (body s) sig := by
  cases hd : opcodeDefined s.variant op with
  | true => rw [execute_defined sig body hd] at h; injection h with h; exact ⟨rfl, h.symm⟩
  | false => rw [execute_undefined sig body hd] at h; cases h

/-- If Execute faults, the opcode was undefined, and the fault holds it and the state given. -/
theorem execute_fault {op : Opcode} {sig : Signal} {body : State → State} {s : State} {r : Fault}
    (h : execute op sig body s = .fault r) : opcodeDefined s.variant op = false ∧ r = .illegalOpcode op s := by
  cases hd : opcodeDefined s.variant op with
  | true => rw [execute_defined sig body hd] at h; cases h
  | false => rw [execute_undefined sig body hd] at h; injection h with h; exact ⟨rfl, h.symm⟩

/-- A fault raised directly is no next state. -/
theorem raiseIllegalOpcode_ne_next (op : Opcode) (s t : State) : raiseIllegalOpcode op s ≠ .next t := by
  simp [raiseIllegalOpcode]

/-! Each instruction as the shared operation it calls, with its opcode value, its signal and its body (R56, R80). -/

theorem exec_jmp (m : AddrMode) (l : Line) (s : State) :
    exec (.jmp m l) s = execute 0 .cont (fun s => writeIp s (operand m l s)) s := rfl
theorem exec_jrp (m : AddrMode) (l : Line) (s : State) :
    exec (.jrp m l) s = execute 1 .cont (fun s => writeIp s (s.ip - operand m l s)) s := rfl
theorem exec_ldn (m : AddrMode) (l : Line) (s : State) :
    exec (.ldn m l) s = execute 2 .cont (fun s => writeA s (negate (operand m l s))) s := rfl
theorem exec_sto (m : AddrMode) (l : Line) (s : State) :
    exec (.sto m l) s = execute 3 .cont (fun s => memWrite s l s.a) s := rfl
theorem exec_sub (m : AddrMode) (l : Line) (s : State) :
    exec (.sub m l) s = execute 4 .cont (fun s => writeA s (s.a - operand m l s)) s := rfl
theorem exec_sub5 (m : AddrMode) (l : Line) (s : State) :
    exec (.sub5 m l) s = execute 5 .cont (fun s => writeA s (s.a - operand m l s)) s := rfl
theorem exec_skn (m : AddrMode) (l : Line) (s : State) :
    exec (.skn m l) s = execute 6 .cont (fun s => if signBit s.a then writeIp s (s.ip + 1) else s) s := rfl
theorem exec_stp (m : AddrMode) (l : Line) (s : State) :
    exec (.stp m l) s = execute 7 .stop (fun s => s) s := rfl
theorem exec_lda (m : AddrMode) (l : Line) (s : State) :
    exec (.lda m l) s = execute 8 .cont (fun s => writeA s (operand m l s)) s := rfl
theorem exec_stn (m : AddrMode) (l : Line) (s : State) :
    exec (.stn m l) s = execute 9 .cont (fun s => memWrite s l (negate s.a)) s := rfl
theorem exec_add (m : AddrMode) (l : Line) (s : State) :
    exec (.add m l) s = execute 10 .cont (fun s => writeA s (s.a + operand m l s)) s := rfl
theorem exec_illegal11 (m : AddrMode) (l : Line) (s : State) :
    exec (.illegal11 m l) s = raiseIllegalOpcode 11 s := rfl
theorem exec_illegal12 (m : AddrMode) (l : Line) (s : State) :
    exec (.illegal12 m l) s = raiseIllegalOpcode 12 s := rfl
theorem exec_illegal13 (m : AddrMode) (l : Line) (s : State) :
    exec (.illegal13 m l) s = raiseIllegalOpcode 13 s := rfl
theorem exec_illegal14 (m : AddrMode) (l : Line) (s : State) :
    exec (.illegal14 m l) s = raiseIllegalOpcode 14 s := rfl
theorem exec_illegal15 (m : AddrMode) (l : Line) (s : State) :
    exec (.illegal15 m l) s = raiseIllegalOpcode 15 s := rfl

/-! The opcode values 0 to 7 are defined in both variants, 8 to 10 in Extended, the others in none (R56). -/

theorem opcodeDefined_common (v : Variant) {op : Opcode} (h : op.toNat < 8) : opcodeDefined v op = true := by
  cases v <;> simp only [opcodeDefined, decide_eq_true_eq] <;> omega

theorem opcodeDefined_extended {op : Opcode} : opcodeDefined .extended op = true ↔ op.toNat < 11 := by
  simp only [opcodeDefined, decide_eq_true_eq]

theorem opcodeDefined_original {op : Opcode} : opcodeDefined .original op = true ↔ op.toNat < 8 := by
  simp only [opcodeDefined, decide_eq_true_eq]

/-! The operand in each form (R78). -/

@[simp] theorem operand_direct (l : Line) (s : State) : operand .direct l s = memRead s l := by
  unfold operand; split <;> first | rfl | contradiction

theorem operand_original (m : AddrMode) (l : Line) {s : State} (h : s.variant = .original) :
    operand m l s = memRead s l := by
  simp only [operand, h]

theorem operand_immediate (l : Line) {s : State} (h : s.variant = .extended) :
    operand .immediate l s = l.setWidth 32 := by
  simp only [operand, h]

end Sys2Proof.Machine
end

