-- ==== Sys2Proof/Laws/Step.lean ====
section
/-! SUPPORT. Everything Execute and a cycle can do, once, over all instructions: the next state is `effect` where the
opcode value is defined for the variant, and the fault otherwise. Invariants are derived from this inversion. -/

namespace Sys2Proof.Machine

/-- The state each instruction leaves where its opcode value is defined, as one table (spec/40_cycle.md R80). -/
def effect (i : Instr) (s : State) : State :=
  match i with
  | .jmp m l => { s with ip := operand m l s, signal := some .cont }
  | .jrp m l => { s with ip := s.ip - operand m l s, signal := some .cont }
  | .ldn m l => { s with a := negate (operand m l s), signal := some .cont }
  | .sto _ l => { s with store := s.store.write l.toNat s.a, signal := some .cont }
  | .sub m l | .sub5 m l => { s with a := s.a - operand m l s, signal := some .cont }
  | .skn _ _ => { s with ip := if signBit s.a then s.ip + 1 else s.ip, signal := some .cont }
  | .stp _ _ => { s with signal := some .stop }
  | .lda m l => { s with a := operand m l s, signal := some .cont }
  | .stn _ l => { s with store := s.store.write l.toNat (negate s.a), signal := some .cont }
  | .add m l => { s with a := s.a + operand m l s, signal := some .cont }
  | .illegal11 _ _ | .illegal12 _ _ | .illegal13 _ _ | .illegal14 _ _ | .illegal15 _ _ => s

theorem opcodeDefined_false {v : Variant} {op : Opcode} (h : 11 ≤ op.toNat) : opcodeDefined v op = false := by
  cases v <;> simp only [opcodeDefined, decide_eq_false_iff_not] <;> omega

/-- Execute of any instruction. -/
theorem exec_eq (i : Instr) (s : State) :
    exec i s = if opcodeDefined s.variant i.opcode then .next (effect i s) else .fault (.illegalOpcode i.opcode s) := by
  cases i with
  | illegal11 m l | illegal12 m l | illegal13 m l | illegal14 m l | illegal15 m l =>
    rw [opcodeDefined_false (by simp [Instr.opcode])]; rfl
  | skn m l =>
    rw [exec_skn, execute]
    cases h : signBit s.a <;> simp [effect, h, writeSignal, writeIp, raiseIllegalOpcode, Instr.opcode]
  | _ => rfl

/-- The inversion of Execute: a next state is the effect of a defined opcode value. -/
theorem exec_next {i : Instr} {s t : State} (h : exec i s = .next t) :
    opcodeDefined s.variant i.opcode = true ∧ t = effect i s := by
  rw [exec_eq] at h
  split at h
  next hd => injection h with h; exact ⟨hd, h.symm⟩
  next => cases h

/-- The inversion of a fault: an undefined opcode value, and the state Execute was given. -/
theorem exec_fault {i : Instr} {s : State} {r : Fault} (h : exec i s = .fault r) :
    opcodeDefined s.variant i.opcode = false ∧ r = .illegalOpcode i.opcode s := by
  rw [exec_eq] at h
  split at h
  next => cases h
  next hd => injection h with h; exact ⟨Bool.eq_false_iff.mpr hd, h.symm⟩

/-- A cycle is Execute of the next instruction on the state after Fetch (R81). -/
theorem step_eq_exec (s : State) : step s = exec (nextInstr s) (fetch s) := rfl

/-- The inversion of a cycle that answers a next state. -/
theorem step_next {s t : State} (h : step s = .next t) :
    opcodeDefined s.variant (nextInstr s).opcode = true ∧ t = effect (nextInstr s) (fetch s) :=
  exec_next h

/-- The inversion of a cycle that faults (R121). -/
theorem step_fault {s : State} {r : Fault} (h : step s = .fault r) :
    opcodeDefined s.variant (nextInstr s).opcode = false ∧ r = .illegalOpcode (nextInstr s).opcode (fetch s) :=
  exec_fault h

end Sys2Proof.Machine
end

