-- ==== Sys2Proof/Laws/Session.lean ====
section
/-! SUPPORT. What each move of the host can do, once: the inversions of `load` and of `cycle`, and the induction over a
run, from which facts about runs are derived. -/

namespace Sys2Proof.Machine

@[simp] theorem Session.state_loading (missing : List Line) (s : State) : (Session.loading missing s).state = s := rfl
@[simp] theorem Session.state_running (s : State) : (Session.running s).state = s := rfl
@[simp] theorem Session.state_faulted (op : Opcode) (s : State) : (Session.faulted op s).state = s := rfl
@[simp] theorem Session.state_created (v : Variant) : (Session.created v).state = State.initial v := rfl
@[simp] theorem Session.state_reset (x : Session) : x.reset.state = State.initial x.state.variant := rfl

/-- `load` answers exactly inside the loader's window (R25, R142). -/
theorem Session.load_isSome (n : Line) (w : Word) (x : Session) : (x.load n w).isSome = x.mayLoad := by
  cases x <;> rfl

/-- The inversion of `load`: the session was loading, one word is written and its line is missing no more. -/
theorem Session.load_cases {n : Line} {w : Word} {x y : Session} (h : x.load n w = some y) :
    ∃ missing s, x = .loading missing s ∧ y = .loading (missing.filter (· ≠ n)) (memWrite s n w) := by
  cases x with
  | loading missing s => injection h with h; exact ⟨missing, s, rfl, h.symm⟩
  | running s => cases h
  | faulted op s => cases h

/-- All the loader's moves can do inside its window: the words are written, and the lines still to load are those that
were and that no move wrote (R24, R142). -/
theorem Session.loadAll_loading (ws : List Word) : ∀ (n : Nat) (missing : List Line) (s : State), ∃ missing',
    Session.loadAll n ws (.loading missing s) = some (.loading missing' (loadFrom n ws s)) ∧
    ∀ l : Line, l ∈ missing' ↔ l ∈ missing ∧ ∀ k, n ≤ k → k < n + ws.length → l ≠ BitVec.ofNat 5 k := by
  induction ws with
  | nil => exact fun n missing s => ⟨missing, rfl, fun l => ⟨fun h => ⟨h, fun _ _ _ => by simp at *; omega⟩, And.left⟩⟩
  | cons w rest ih =>
    intro n missing s
    obtain ⟨missing', h, hm⟩ := ih (n + 1) (missing.filter (· ≠ BitVec.ofNat 5 n)) (memWrite s (BitVec.ofNat 5 n) w)
    refine ⟨missing', h, fun l => ?_⟩
    rw [hm, List.mem_filter, decide_eq_true_eq, List.length_cons]
    refine ⟨fun ⟨⟨h1, h2⟩, h3⟩ => ⟨h1, fun k hk hk' => ?_⟩,
      fun ⟨h1, h2⟩ => ⟨⟨h1, h2 n (by omega) (by omega)⟩, fun k hk hk' => h2 k (by omega) (by omega)⟩⟩
    rcases Nat.eq_or_lt_of_le hk with rfl | hlt
    · exact h2
    · exact h3 k hlt (by omega)

/-- Where no cycle is allowed, none happens. -/
theorem Session.cycle_none {x : Session} (h : x.mayCycle = false) : x.cycle = none := by
  simp only [Session.cycle, h, Bool.false_eq_true, if_false]

/-- The inversion of `cycle`: it was allowed, and it is one step, which completed or faulted. -/
theorem Session.cycle_cases {x y : Session} (h : x.cycle = some y) :
    x.mayCycle = true ∧ ((∃ t, step x.state = .next t ∧ y = .running t) ∨
      (∃ op left, step x.state = .fault (.illegalOpcode op left) ∧ y = .faulted op left)) := by
  unfold Session.cycle at h
  split at h
  next hm =>
    refine ⟨hm, ?_⟩
    split at h
    next t ht => injection h with h; exact .inl ⟨t, ht, h.symm⟩
    next op left hf => injection h with h; exact .inr ⟨op, left, hf, h.symm⟩
    next => cases h
  next => cases h

/-- A cycle that is allowed happens: a step never refuses (R9). -/
theorem Session.cycle_some {x : Session} (h : x.mayCycle = true) : ∃ y, x.cycle = some y := by
  simp only [Session.cycle, h, if_true, step_eq_exec, exec_eq]
  split
  next => exact ⟨_, rfl⟩
  next => exact ⟨_, rfl⟩
  next r hr => split at hr <;> cases hr

/-- The driver makes no move where no cycle is allowed (R84, R122). -/
theorem Session.drive_stays {x : Session} (h : x.mayCycle = false) (k : Nat) : Session.drive k x = x := by
  cases k with
  | zero => rfl
  | succ k => simp only [Session.drive, Session.cycle_none h]

/-- What every cycle keeps, every run keeps. -/
theorem Session.drive_induction {P : Session → Prop} (hstep : ∀ x y, P x → x.cycle = some y → P y) (k : Nat) :
    ∀ x, P x → P (Session.drive k x) := by
  induction k with
  | zero => exact fun _ h => h
  | succ k ih =>
    intro x h
    unfold Session.drive
    split
    next y hy => exact ih y (hstep x y h hy)
    next => exact h

end Sys2Proof.Machine
end

