-- ==== Sys2Proof/Tests/Slice0.lean ====
section
/-! SUPPORT. Small tests. Expected values come from the spec: the opcode table and the vectors V-… of
spec/95_test_vectors.md, whose names stand in the comments; the witnesses show concrete states that meet the hypotheses
of the statements in Certificates/Slice0/Obligations.lean. -/

namespace Sys2Proof.Tests

open Sys2Proof Sys2Proof.Machine

/-- A state between two cycles. -/
def state (v : Variant) (ip a : Word) (store : Memory) : State :=
  { store := store, a := a, ip := ip, ir := 0, variant := v, signal := none }

/-- The state one cycle leaves, if it completes. -/
def after (s : State) : Option State :=
  match step s with
  | .next t => some t
  | _ => none

/-- The opcode value and the state of the fault one cycle ends with, if it faults. -/
def faultOf (s : State) : Option (Opcode × State) :=
  match step s with
  | .fault (.illegalOpcode op left) => some (op, left)
  | _ => none

/-! ### WellFormed: an ill-formed term for each check, and its well-formed neighbour -/

theorem test_wellFormed_refuses_lda_in_original : (Instr.lda .direct 3).wellFormed .original = false := by decide
theorem test_wellFormed_refuses_illegal_in_original : (Instr.illegal11 .direct 3).wellFormed .original = false := by decide
theorem test_wellFormed_refuses_immediate_in_original : (Instr.ldn .immediate 3).wellFormed .original = false := by decide
theorem test_wellFormed_accepts_stp_in_original : (Instr.stp .direct 3).wellFormed .original = true := by decide
theorem test_wellFormed_accepts_add_in_extended : (Instr.add .immediate 3).wellFormed .extended = true := by decide

/-! ### Decoding: words written out from R51, R52 and R56 -/

theorem test_decode_control_extended :
    decode .extended 0b00000000000000000000000000000011 = .jmp .direct 3 ∧
    decode .extended 0b10000000000000000000000000011111 = .jmp .immediate 31 ∧
    decode .extended 0b00000000000000000010000000010101 = .jrp .direct 21 ∧
    decode .extended 0b10000000000000000010000000000100 = .jrp .immediate 4 ∧
    decode .extended 0b00000000000000001100000000000000 = .skn .direct 0 ∧
    decode .extended 0b10000000000000001110000000011111 = .stp .immediate 31 := by decide
theorem test_decode_accumulator_extended :
    decode .extended 0b00000000000000000100000000001001 = .ldn .direct 9 ∧
    decode .extended 0b10000000000000001000000000011111 = .sub .immediate 31 ∧
    decode .extended 0b00000000000000001010000000011111 = .sub5 .direct 31 ∧
    decode .extended 0b00000000000000010000000000001100 = .lda .direct 12 ∧
    decode .extended 0b10000000000000010100000000000101 = .add .immediate 5 := by decide
theorem test_decode_store_extended :
    decode .extended 0b10000000000000000110000000000100 = .sto .immediate 4 ∧
    decode .extended 0b00000000000000010010000000011001 = .stn .direct 25 := by decide
theorem test_decode_illegal_extended :
    decode .extended 0b00000000000000010110000000000000 = .illegal11 .direct 0 ∧
    decode .extended 0b00000000000000011000000000000000 = .illegal12 .direct 0 ∧
    decode .extended 0b00000000000000011010000000000000 = .illegal13 .direct 0 ∧
    decode .extended 0b10000000000000011100000000000011 = .illegal14 .immediate 3 ∧
    decode .extended 0b11111111111111111111111111111111 = .illegal15 .immediate 31 := by decide
theorem test_decode_original :
    decode .original 0b10000000000000010100000000000101 = .ldn .direct 5 ∧
    decode .original 0b00000000000000010110000000000000 = .sto .direct 0 ∧
    decode .original 0b00000000000000011110000000011111 = .stp .direct 31 ∧
    decode .original 0b00000000000000010010000000011001 = .jrp .direct 25 ∧
    decode .original 0b10000000000000001000000000001000 = .sub .direct 8 ∧
    decode .original 0b00000000000000001010000000001000 = .sub5 .direct 8 ∧
    decode .original 0b00000000000000001100000000000000 = .skn .direct 0 := by decide
/-- Every ignored bit set and nothing else (rule R53): still `JMP 0`. -/
theorem test_decode_ignored_bits : decode .extended 0x7FFE1FE0 = .jmp .direct 0 := by decide
/-- The spot checks of section 2.3. -/
theorem test_encode_spot_checks :
    encode (.add .immediate 5) = 0x80014005 ∧ encode (.stn .direct 25) = 0x00012019 ∧
    encode (.stp .direct 0) = 0x0000E000 ∧ encode (.jmp .immediate 31) = 0x8000001F ∧
    encode (.sub5 .direct 31) = 0x0000A01F := by decide
/-- Match words of the table's rows, through the fixed name the host calls. -/
theorem test_decodeTableWord_rows :
    decodeTableWord 32 0x00000000 = some (.jmp .direct 0) ∧ decodeTableWord 32 0x80000000 = some (.jmp .immediate 0) ∧
    decodeTableWord 32 0x00006000 = some (.sto .direct 0) ∧ decodeTableWord 32 0x8000A000 = some (.sub5 .immediate 0) ∧
    decodeTableWord 32 0x00012000 = some (.stn .direct 0) ∧ decodeTableWord 32 0x0001C000 = some (.illegal14 .direct 0) ∧
    decodeTableWord 40 0 = none := by decide
/-- A word placed where reset fetches is the first instruction run (STP), and it is at line 1 (rule R144). -/
theorem test_withFetchWord_runs :
    (after (State.reset.withFetchWord 32 0x0000E000)).map (·.signal) = some (some .stop) ∧
    (State.reset.withFetchWord 32 0x0000E000).store = [(1, 0x0000E000)] := by decide

/-! ### One cycle each: the vectors of section 2.4 -/

/-- V-JMP-1. -/
theorem test_jmp_direct : (after (state .original 3 0 [(4, 0x14), (20, 9)])).map (·.ip) = some 9 := by decide
/-- V-JMP-4. -/
theorem test_jmp_immediate : (after (state .extended 3 0 [(4, 0x8000001F)])).map (·.ip) = some 0x1F := by decide
/-- V-JRP-5. -/
theorem test_jrp_wraps_below_zero :
    (after (state .original 1 0 [(2, 0x2015), (21, 5)])).map (·.ip) = some 0xFFFFFFFD := by decide
/-- V-JRP-6. -/
theorem test_jrp_immediate : (after (state .extended 9 0 [(10, 0x80002004)])).map (·.ip) = some 6 := by decide
/-- V-SKN-3 and V-SKN-4: the test is of bit 31 alone. -/
theorem test_skn_bit_31 :
    (after (state .original 4 0x7FFFFFFF [(5, 0xC000)])).map (·.ip) = some 5 ∧
    (after (state .original 4 0xFFFFFFFF [(5, 0xC000)])).map (·.ip) = some 6 := by decide
/-- V-SKN-6: Fetch at the top of the range, and the skip wraps. -/
theorem test_skn_wraps : (after (state .original 0xFFFFFFFE 0x80000000 [(31, 0xC000)])).map (·.ip) = some 0 := by decide
/-- V-STP-2. -/
theorem test_stp_mode_and_line_ignored :
    (after (state .extended 0xA 0x2A [(11, 0x8000E01F)])).map (fun t => (t.signal, t.ip, t.a)) =
      some (some .stop, 0xB, 0x2A) := by decide
/-- V-STP-3: the word at line 0, with `IP` keeping its upper bits (decision D3). -/
theorem test_stp_at_line_0 :
    (after (state .original 0x1F 7 [(0, 0xE000)])).map (fun t => (t.signal, t.ip)) = some (some .stop, 0x20) := by decide
/-- V-LDN-3. -/
theorem test_ldn_most_negative :
    (after (state .original 0 0 [(1, 0x4009), (9, 0x80000000)])).map (·.a) = some 0x80000000 := by decide
/-- V-LDN-5. -/
theorem test_ldn_immediate : (after (state .extended 0 0 [(1, 0x80004007)])).map (·.a) = some 0xFFFFFFF9 := by decide
/-- V-SUB-3: signed overflow, silent. -/
theorem test_sub_overflow :
    (after (state .original 0 0x80000000 [(1, 0x8008), (8, 1)])).map (·.a) = some 0x7FFFFFFF := by decide
/-- V-SUB-7: the operand is the instruction's own word. -/
theorem test_sub_own_word : (after (state .original 0 0x8001 [(1, 0x8001)])).map (·.a) = some 0 := by decide
/-- V-SUB5-1. -/
theorem test_sub5_direct : (after (state .original 0 0xA [(1, 0xA008), (8, 3)])).map (·.a) = some 7 := by decide
/-- V-SUB5-2. -/
theorem test_sub5_immediate : (after (state .extended 0 0 [(1, 0x8000A001)])).map (·.a) = some 0xFFFFFFFF := by decide
/-- V-LDA-1. -/
theorem test_lda_direct :
    (after (state .extended 0 0x55 [(1, 0x1000C), (12, 0x80000001)])).map (·.a) = some 0x80000001 := by decide
/-- V-LDA-4: the LDA word on an Original core is `JMP 12`. -/
theorem test_lda_word_in_original :
    (after (state .original 0 0x55 [(1, 0x1000C), (12, 0x80000001)])).map (fun t => (t.ip, t.a)) =
      some (0x80000001, 0x55) := by decide
/-- V-ADD-3: signed overflow, silent. -/
theorem test_add_overflow :
    (after (state .extended 0 0x7FFFFFFF [(1, 0x80014001)])).map (·.a) = some 0x80000000 := by decide
/-- V-ADD-4. -/
theorem test_add_direct :
    (after (state .extended 0 0x64 [(1, 0x1400D), (13, 0xFFFFFFFF)])).map (·.a) = some 0x63 := by decide
/-- V-STO-2: the store goes to the line, whatever the mode. -/
theorem test_sto_mode_ignored :
    (after (state .extended 0 0x2A [(1, 0x80006004)])).map (·.store) = some [(1, 0x80006004), (4, 0x2A)] := by decide
/-- V-STO-5: storing the reset value leaves no entry. -/
theorem test_sto_zero :
    (after (state .original 0 0 [(1, 0x601F), (31, 0xFFFFFFFF)])).map (·.store) = some [(1, 0x601F)] := by decide
/-- V-STN-1. -/
theorem test_stn_negates :
    (after (state .extended 0 7 [(1, 0x1201E)])).map (fun t => (t.store, t.a)) =
      some ([(1, 0x1201E), (30, 0xFFFFFFF9)], 7) := by decide
/-- V-STN-4: the instruction overwrites its own line, and `IR` keeps the word. -/
theorem test_stn_own_line :
    (after (state .extended 0 1 [(1, 0x12001)])).map (fun t => (t.store, t.ir)) =
      some ([(1, 0xFFFFFFFF)], 0x12001) := by decide
/-- V-FLT-1. -/
theorem test_illegal11 : (faultOf (state .extended 1 7 [(2, 0x16000)])).map (·.1) = some 11 := by decide
/-- V-FLT-4. -/
theorem test_illegal12 : (faultOf (state .extended 1 7 [(2, 0x18000)])).map (·.1) = some 12 := by decide
/-- V-FLT-5. -/
theorem test_illegal13 : (faultOf (state .extended 1 7 [(2, 0x1A000)])).map (·.1) = some 13 := by decide
/-- V-FLT-6, with the state the fault leaves. -/
theorem test_illegal14 :
    (faultOf (state .extended 1 7 [(2, 0x8001C003)])).map (fun f => (f.1, f.2.ip, f.2.ir, f.2.a)) =
      some (14, 2, 0x8001C003, 7) := by decide
/-- V-FLT-3. -/
theorem test_illegal15 : (faultOf (state .extended 1 7 [(2, 0xFFFFFFFF)])).map (·.1) = some 15 := by decide
/-- V-FLT-7: the same word on an Original core is `STO 0`. -/
theorem test_illegal11_word_in_original :
    (after (state .original 1 7 [(2, 0x16000)])).map (·.store) = some [(0, 7), (2, 0x16000)] := by decide

/-! ### The program image -/

/-- Rule R62: the text of STP has its `1` characters at 13, 14 and 15. -/
theorem test_text_of_stp :
    textOfWord 0x0000E000 = "00000000000001110000000000000000".toList ∧
    wordOfText "00000000000001110000000000000000".toList = some 0x0000E000 ∧
    wordOfText "0000000000000111".toList = none := by decide

/-! ### Witnesses: the hypotheses of the statements are met -/

theorem witness_wellFormed_forms :
    (Instr.jmp .direct 0).wellFormed .original = true ∧ (Instr.stp .direct 31).wellFormed .original = true ∧
    (Instr.illegal15 .immediate 31).wellFormed .extended = true := by decide
theorem witness_variants_differ :
    (0x00010000 : Word).getLsbD 16 = true ∧ (0x80000000 : Word).getLsbD 31 = true ∧
    (0x0000FFFF : Word).getLsbD 16 = false ∧ (0x0000FFFF : Word).getLsbD 31 = false := by decide
theorem witness_undefined_opcodes :
    11 ≤ (0x00016000 : Word).toNat / 2 ^ 13 % 16 ∧ 11 ≤ (0xFFFFFFFF : Word).toNat / 2 ^ 13 % 16 := by decide
theorem witness_variants_of_states :
    (state .extended 0 0 []).variant = .extended ∧ (state .original 0 0 []).variant = .original := by decide
theorem witness_two_lines : (0 : Line) ≠ 31 := by decide
/-- An instruction's canonical word at the line fetched, for the second clause of the step statement, in both variants. -/
theorem witness_step_runs :
    (Instr.stp .direct 31).wellFormed (state .original 0x1F 0 [(0, 0xE01F)]).variant = true ∧
    memRead (state .original 0x1F 0 [(0, 0xE01F)])
      (BitVec.ofNat 5 ((state .original 0x1F 0 [(0, 0xE01F)]).ip.toNat + 1)) = encode (.stp .direct 31) ∧
    (Instr.lda .immediate 1).wellFormed (state .extended 0 0 [(1, 0x80010001)]).variant = true ∧
    memRead (state .extended 0 0 [(1, 0x80010001)])
      (BitVec.ofNat 5 ((state .extended 0 0 [(1, 0x80010001)]).ip.toNat + 1)) = encode (.lda .immediate 1) := by decide
/-- Both sides of the opcode check at its boundary, in both variants: 7 and 8 in Original, 10 and 11 in Extended. -/
theorem witness_opcode_boundaries :
    opcodeDefined .original (Instr.stp .direct 0).opcode = true ∧
    opcodeDefined .original (Instr.lda .direct 0).opcode = false ∧
    opcodeDefined .extended (Instr.add .direct 0).opcode = true ∧
    opcodeDefined .extended (Instr.illegal11 .direct 0).opcode = false := by decide
/-- A cycle that completes for each instruction, so that no statement about a next state is empty. -/
theorem witness_cycles_complete :
    (after (state .extended 0 0 [(1, 0x00000000)])).isSome = true ∧
    (after (state .extended 0 0 [(1, 0x00002000)])).isSome = true ∧
    (after (state .extended 0 0 [(1, 0x00004000)])).isSome = true ∧
    (after (state .extended 0 0 [(1, 0x00008000)])).isSome = true ∧
    (after (state .extended 0 0 [(1, 0x0000C000)])).isSome = true ∧
    (after (state .extended 0 0 [(1, 0x0000E000)])).isSome = true ∧
    (after (state .extended 0 0 [(1, 0x00010000)])).isSome = true ∧
    (after (state .extended 0 0 [(1, 0x00014000)])).isSome = true := by decide
/-- A cycle that faults, from a state in the canonical form, in Extended. -/
theorem witness_fault :
    step (state .extended 1 7 [(2, 0x16000)]) =
      .fault (.illegalOpcode 11 { state .extended 1 7 [(2, 0x16000)] with ip := 2, ir := 0x16000 }) := rfl
/-- A store into the line fetched next (V-STO-4), for the STO clause. -/
theorem witness_store_next_line_sto :
    nextInstr (state .original 0 0xE000 [(1, 0x6002)]) = .sto .direct 2 ∧
    (after (state .original 0 0xE000 [(1, 0x6002)])).map nextLine = some 2 := by decide
/-- A store into the line fetched next, for the STN clause, at the wrap from line 31 to line 0. -/
theorem witness_store_next_line_stn :
    nextInstr (state .extended 30 1 [(31, 0x12000)]) = .stn .direct 0 ∧
    (after (state .extended 30 1 [(31, 0x12000)])).map nextLine = some 0 := by decide
/-- A cycle that changes a store word, and one that changes `A`. -/
theorem witness_writers :
    (after (state .original 0 7 [(1, 0x6004)])).map (fun t => decide (memRead t 4 ≠ 0)) = some true ∧
    (after (state .original 0 7 [(1, 0x8001)])).map (fun t => decide (t.a ≠ 7)) = some true := by decide
/-- Sums, differences and negations that fit in 32 signed bits, at the ends of the range. -/
theorem witness_signed_fits :
    (-2 ^ 31 : Int) ≤ (0x7FFFFFFE : Word).toInt + (1 : Word).toInt ∧
    (0x7FFFFFFE : Word).toInt + (1 : Word).toInt < 2 ^ 31 ∧
    (-2 ^ 31 : Int) ≤ (0x80000001 : Word).toInt - (1 : Word).toInt ∧
    (0x80000001 : Word).toInt - (1 : Word).toInt < 2 ^ 31 ∧ -(0x80000001 : Word).toInt < 2 ^ 31 := by decide
/-- Two states that differ in `IP[31:5]`. -/
theorem witness_same_but_upper_ip :
    (state .original 0x1F 0 [(0, 0xE000)]).sameButUpperIp (state .original 0xFFFFFFFF 0 [(0, 0xE000)]) ∧
    (state .original 0x1F 0 [(0, 0xE000)]).ip ≠ (state .original 0xFFFFFFFF 0 [(0, 0xE000)]).ip := by decide
/-- A fetched word with bits 16 and 31 clear. -/
theorem witness_agreeing_word :
    (nextWord (state .original 0 0 [(1, 0x601F)])).getLsbD 16 = false ∧
    (nextWord (state .original 0 0 [(1, 0x601F)])).getLsbD 31 = false := by decide
theorem witness_canonical_store : (state .extended 0 0 [(0, 1), (1, 2), (31, 0xFFFFFFFF)]).Inv := by decide
theorem witness_canonical_store_refuses :
    ¬ (state .extended 0 0 [(1, 2), (0, 1)]).Inv ∧ ¬ (state .extended 0 0 [(32, 1)]).Inv ∧
    ¬ (state .extended 0 0 [(1, 0)]).Inv := by decide
/-- Sessions before launch, with a line still to load and with none. -/
theorem witness_before_launch :
    ([31] : List Line) ≠ [] ∧ (Session.loading [31] (state .original 0 0 [(1, 0xE000)])).cycle = none ∧
    (Session.load 31 5 (.loading [31] (state .original 0 0 [(1, 0xE000)]))).map Session.mayCycle = some true ∧
    (Session.loading [] (state .original 0 0 [(1, 0xE000)])).cycle.isSome = true := by decide
/-- A load answered in a session whose state is canonical, and sessions in which none is. -/
theorem witness_loader_window :
    ((Session.created .original).load 31 5).isSome = true ∧ (Session.created .original).state.Inv ∧
    (Session.running (state .original 0 0 [])).load 31 5 = none ∧
    (Session.faulted 11 (state .extended 0 0 [])).load 31 5 = none := by decide
/-- Signals of a run that has ended and of one that goes on, and a run of Original that has not faulted. -/
theorem witness_run_windows :
    ({ State.initial .original with signal := some .stop } : State).signal = some .stop ∧
    (state .original 0 0 []).signal ≠ some .stop ∧
    (Session.running (state .original 0 0 [])).unfaulted = true ∧
    (Session.running (state .original 0 0 [])).state.variant = .original := by decide
theorem witness_image_length : (List.replicate 32 (0 : Word)).length = 32 := by decide
theorem witness_ip_zero : (State.initial .extended).ip = 0 ∧ (state .original 0xFFFFFFFF 0 []).ip.toNat % 32 = 31 := by decide
/-- R62: 32 lines with a word each have an image; a line of 31 characters, or one line too few, makes none. -/
theorem witness_image_of_text :
    imageOfText (List.replicate 32 "00000000000001110000000000000000".toList) = some (List.replicate 32 0x0000E000) ∧
    imageOfText (List.replicate 31 "00000000000001110000000000000000".toList) = none ∧
    imageOfText (List.replicate 32 "0000000000000111000000000000000".toList) = none ∧
    (wordOfText "00000000000001110000000000000000".toList).isSome = true := by
  decide

end Sys2Proof.Tests
end

section
/-! The scope of the core (spec/00_scope.md): a cycle is total (R9), and the variant is configuration (R3). -/

namespace Sys2Proof.Machine

/-! ### A cycle from a safe and from an unsafe state -/

/-- The check of R77 that a cycle makes is on the opcode field of the word fetched (R72, R74). -/
theorem safe_iff_opcodeDefined (s : State) : s.safe ↔ opcodeDefined s.variant (nextInstr s).opcode = true := by
  rw [State.safe, nextInstr, decode_opcode]

theorem step_of_safe {s : State} (h : s.safe) : step s = .next (effect (nextInstr s) (fetch s)) := by
  rw [step_eq_exec, exec_eq, fetch_variant, if_pos ((safe_iff_opcodeDefined s).mp h)]

theorem step_of_not_safe {s : State} (h : ¬ s.safe) :
    step s = .fault (.illegalOpcode (nextInstr s).opcode (fetch s)) := by
  rw [step_eq_exec, exec_eq, fetch_variant, if_neg (mt (safe_iff_opcodeDefined s).mpr h)]

theorem safe_iff_exists_next (s : State) : s.safe ↔ ∃ t, step s = .next t :=
  ⟨fun h => ⟨_, step_of_safe h⟩, fun ⟨_, ht⟩ => (safe_iff_opcodeDefined s).mpr (step_next ht).1⟩

/-- Settles O34: a safe state steps to the instruction's effect and any other to the fault, so no third outcome is
left. -/
theorem cycleIsTotal : Obligations.CycleIsTotal := by
  intro s
  refine ⟨?_, safe_iff_exists_next s⟩
  by_cases h : s.safe
  · exact .inl ⟨_, step_of_safe h⟩
  · exact .inr ⟨_, _, step_of_not_safe h⟩

/-! ### The variant under every move -/

@[simp] theorem effect_variant (i : Instr) (s : State) : (effect i s).variant = s.variant := by
  cases i <;> rfl

theorem step_next_variant {s t : State} (h : step s = .next t) : t.variant = s.variant := by
  obtain ⟨-, rfl⟩ := step_next h
  rw [effect_variant, fetch_variant]

theorem step_fault_variant {s left : State} {op : Opcode} (h : step s = .fault (.illegalOpcode op left)) :
    left.variant = s.variant := by
  obtain ⟨-, hleft⟩ := step_fault h
  injection hleft with _ hleft
  rw [hleft, fetch_variant]

/-- A cycle of a session keeps the variant whether it completes or faults: the state left by a fault is the one after
Fetch (R121). -/
theorem Session.cycle_variant {x y : Session} (h : x.cycle = some y) : y.state.variant = x.state.variant := by
  obtain ⟨-, ⟨t, ht, rfl⟩ | ⟨op, left, hf, rfl⟩⟩ := Session.cycle_cases h
  · exact step_next_variant ht
  · exact step_fault_variant hf

theorem Session.drive_variant (k : Nat) (x : Session) : (Session.drive k x).state.variant = x.state.variant :=
  Session.drive_induction (P := fun y => y.state.variant = x.state.variant)
    (fun _ _ hx hc => (Session.cycle_variant hc).trans hx) k x rfl

theorem Session.load_variant {n : Line} {w : Word} {x y : Session} (h : x.load n w = some y) :
    y.state.variant = x.state.variant := by
  obtain ⟨missing, s, rfl, rfl⟩ := Session.load_cases h
  exact memWrite_variant s n w

theorem Session.reset_variant (x : Session) : x.reset.state.variant = x.state.variant := by
  rw [Session.state_reset, initial_variant]

/-- Settles O42: every instruction's effect and Fetch leave the variant alone, so by the induction over a run every
number of cycles does; a load writes the store only, and a reset creates the session anew with the variant it had. -/
theorem variantNeverChanges : Obligations.VariantNeverChanges :=
  ⟨fun _ _ => step_next_variant, Session.drive_variant, fun _ _ _ _ => Session.load_variant, Session.reset_variant⟩

end Sys2Proof.Machine
end

section
/-! The Machine State (spec/10_state.md): what each instruction's effect makes of each element, what a whole cycle makes
of it, that `IP[31:5]` reaches nothing else, the store's canonical form under every move, and the host's windows. -/

namespace Sys2Proof.Machine

/-! ### The store after a write -/

@[simp] theorem memRead_memWrite_same (s : State) (l : Line) (v : Word) : memRead (memWrite s l v) l = v :=
  Memory.read_write_same _ _ _

theorem memRead_memWrite_other (s : State) {l l' : Line} (v : Word) (h : l' ≠ l) :
    memRead (memWrite s l v) l' = memRead s l' :=
  Memory.read_write_other _ v (line_toNat_ne h)

@[simp] theorem memRead_initial (v : Variant) (l : Line) : memRead (State.initial v) l = 0 := rfl

/-! ### The effect of an instruction on each element -/

/-- R11: an instruction under which some line reads otherwise is a store to that line. -/
theorem store_of_memRead_effect_ne {i : Instr} {s : State} {l : Line} (h : memRead (effect i s) l ≠ memRead s l) :
    ∃ m, i = .sto m l ∨ i = .stn m l := by
  cases i with
  | sto m l' =>
    obtain rfl : l = l' := by_contra fun hl => h (memRead_memWrite_other s _ hl)
    exact ⟨m, .inl rfl⟩
  | stn m l' =>
    obtain rfl : l = l' := by_contra fun hl => h (memRead_memWrite_other s _ hl)
    exact ⟨m, .inr rfl⟩
  | _ => exact absurd rfl h

/-- R12: an instruction that changes `A` is one of the five accumulator instructions. -/
theorem accumulator_of_effect_a_ne {i : Instr} {s : State} (h : (effect i s).a ≠ s.a) :
    ∃ m l, i = .ldn m l ∨ i = .sub m l ∨ i = .sub5 m l ∨ i = .lda m l ∨ i = .add m l := by
  cases i with
  | ldn m l | sub m l | sub5 m l | lda m l | add m l => exact ⟨m, l, by simp⟩
  | _ => exact absurd rfl h

/-- R17: no instruction writes `IR`. -/
@[simp] theorem effect_ir (i : Instr) (s : State) : (effect i s).ir = s.ir := by
  cases i <;> rfl

theorem effect_inv (i : Instr) {s : State} (h : s.Inv) : (effect i s).Inv := by
  cases i with
  | sto m l | stn m l => exact memWrite_wf l _ h
  | _ => exact h

/-- R82: a defined opcode value writes the signal without reading it. -/
theorem effect_of_signal {v : Variant} {i : Instr} (h : opcodeDefined v i.opcode = true) (s : State)
    (x : Option Signal) : effect i { s with signal := x } = effect i s := by
  cases i with
  | illegal11 m l | illegal12 m l | illegal13 m l | illegal14 m l | illegal15 m l =>
    rw [opcodeDefined_false (by simp [Instr.opcode])] at h
    cases h
  | _ => rfl

/-! ### What a faulting cycle leaves -/

/-- R121: the state left is the one after Fetch, and the opcode value is that of the instruction. -/
theorem step_fault_eq {s left : State} {op : Opcode} (h : step s = .fault (.illegalOpcode op left)) :
    op = (nextInstr s).opcode ∧ left = fetch s := by
  obtain ⟨-, hr⟩ := step_fault h
  injection hr with hop hleft
  exact ⟨hop, hleft⟩

theorem not_safe_of_step_fault {s : State} {r : Fault} (h : step s = .fault r) : ¬ s.safe :=
  fun hs => by rw [step_of_safe hs] at h; cases h

/-! ### The low five bits of `IP` -/

theorem lineOfIp_add (x y : Word) : lineOfIp (x + y) = lineOfIp x + lineOfIp y :=
  BitVec.setWidth_add x y (by decide)

theorem lineOfIp_sub (x y : Word) : lineOfIp (x - y) = lineOfIp x - lineOfIp y := by
  rw [eq_sub_iff_add_eq, ← lineOfIp_add, BitVec.sub_add_cancel]

theorem operand_congr {s t : State} (hs : s.store = t.store) (hv : s.variant = t.variant) (m : AddrMode) (l : Line) :
    operand m l s = operand m l t := by
  simp only [operand, hv, memRead_congr hs]

/-! ### States that agree in everything but `IP[31:5]` -/

namespace State.sameButUpperIp

variable {s t : State} (h : s.sameButUpperIp t)
include h

theorem nextLine_eq : nextLine s = nextLine t := by
  obtain ⟨-, -, hip, -, -, -⟩ := h
  simp only [nextLine, lineOfIp_add, hip]

theorem nextWord_eq : nextWord s = nextWord t := by
  have hline := h.nextLine_eq
  obtain ⟨hs, -, -, -, -, -⟩ := h
  rw [nextWord, nextWord, hline, memRead_congr hs]

theorem variant_eq : s.variant = t.variant := by
  obtain ⟨-, -, -, -, hv, -⟩ := h
  exact hv

theorem nextInstr_eq : nextInstr s = nextInstr t := by
  rw [nextInstr, nextInstr, h.nextWord_eq, h.variant_eq]

theorem safe_iff : s.safe ↔ t.safe := by
  rw [safe_iff_opcodeDefined, safe_iff_opcodeDefined, h.nextInstr_eq, h.variant_eq]

/-- Fetch increments both `IP`s, and the word it loads is at the line of the low five bits. -/
theorem fetch : (fetch s).sameButUpperIp (fetch t) := by
  have hw := h.nextWord_eq
  obtain ⟨hs, ha, hip, -, hv, hsig⟩ := h
  exact ⟨hs, ha, by simp only [fetch_ip, lineOfIp_add, hip], hw, hv, hsig⟩

/-- No instruction takes more than the low five bits of `IP` to another place: JMP discards it, JRP and SKN add to it
modulo 2^32, and the others leave it. -/
theorem effect (i : Instr) : (effect i s).sameButUpperIp (effect i t) := by
  obtain ⟨hs, ha, hip, hir, hv, hsig⟩ := h
  have ho := operand_congr hs hv
  cases i with
  | jmp m l => exact ⟨hs, ha, congrArg lineOfIp (ho m l), hir, hv, rfl⟩
  | jrp m l =>
    have hip' : lineOfIp (s.ip - operand m l s) = lineOfIp (t.ip - operand m l t) := by
      rw [lineOfIp_sub, lineOfIp_sub, hip, ho]
    exact ⟨hs, ha, hip', hir, hv, rfl⟩
  | skn m l =>
    have hip' : lineOfIp (if signBit s.a then s.ip + 1 else s.ip) =
        lineOfIp (if signBit t.a then t.ip + 1 else t.ip) := by
      rw [ha]
      split
      · rw [lineOfIp_add, lineOfIp_add, hip]
      · exact hip
    exact ⟨hs, ha, hip', hir, hv, rfl⟩
  | ldn m l => exact ⟨hs, congrArg negate (ho m l), hip, hir, hv, rfl⟩
  | lda m l => exact ⟨hs, ho m l, hip, hir, hv, rfl⟩
  | sub m l | sub5 m l => exact ⟨hs, congrArg₂ (· - ·) ha (ho m l), hip, hir, hv, rfl⟩
  | add m l => exact ⟨hs, congrArg₂ (· + ·) ha (ho m l), hip, hir, hv, rfl⟩
  | sto m l => exact ⟨congrArg₂ (Memory.write · l.toNat ·) hs ha, ha, hip, hir, hv, rfl⟩
  | stn m l => exact ⟨congrArg₂ (Memory.write · l.toNat ·) hs (congrArg negate ha), ha, hip, hir, hv, rfl⟩
  | stp m l => exact ⟨hs, ha, hip, hir, hv, rfl⟩
  | illegal11 | illegal12 | illegal13 | illegal14 | illegal15 => exact ⟨hs, ha, hip, hir, hv, hsig⟩

end State.sameButUpperIp

/-- Settles O36: related states decode one instruction, and Fetch and every effect keep the relation. -/
theorem upperIpBitsReachNothingElse : Obligations.UpperIpBitsReachNothingElse := by
  intro s s' h
  constructor
  · intro t ht
    have hsafe : s'.safe := h.safe_iff.mp ((safe_iff_exists_next s).mpr ⟨t, ht⟩)
    obtain ⟨-, rfl⟩ := step_next ht
    refine ⟨_, step_of_safe hsafe, ?_⟩
    rw [h.nextInstr_eq]
    exact h.fetch.effect _
  · intro op left hf
    have hunsafe : ¬ s'.safe := mt h.safe_iff.mpr (not_safe_of_step_fault hf)
    obtain ⟨rfl, rfl⟩ := step_fault_eq hf
    rw [h.nextInstr_eq]
    exact ⟨_, step_of_not_safe hunsafe, h.fetch⟩

/-! ### Each element over a whole cycle -/

theorem signBit_eq_decide (w : Word) : signBit w = decide (2 ^ 31 ≤ w.toNat) := getLsbD_31 w

/-- Settles O20: Fetch has added 1 to `IP`; JMP replaces that, JRP subtracts from it and a taken SKN adds 1 more. -/
theorem netChangeOfIp : Obligations.NetChangeOfIp := by
  intro s
  refine ⟨fun t ht => ?_, fun op left hf => ?_⟩
  · obtain ⟨-, rfl⟩ := step_next ht
    cases nextInstr s with
    | skn m l =>
      have htwo : s.ip + 1 + 1 = s.ip + 2 := BitVec.add_assoc s.ip 1 1
      simp only [effect, fetch_a, fetch_ip, signBit_eq_decide, decide_eq_true_eq, htwo]
    | _ => rfl
  · obtain ⟨-, rfl⟩ := step_fault_eq hf
    rfl

/-- Settles O30: Fetch leaves the store alone, so the line was changed by the instruction's effect. -/
theorem onlyStoAndStnWriteTheStore : Obligations.OnlyStoAndStnWriteTheStore := by
  intro s t ht l hl
  obtain ⟨-, rfl⟩ := step_next ht
  exact store_of_memRead_effect_ne hl

/-- Settles O31: Fetch leaves `A` alone, so it was changed by the instruction's effect. -/
theorem onlyAccumulatorInstructionsWriteA : Obligations.OnlyAccumulatorInstructionsWriteA := by
  intro s t ht ha
  obtain ⟨-, rfl⟩ := step_next ht
  exact accumulator_of_effect_a_ne ha

/-- Settles O32: Fetch loads `IR`, no effect writes it, and a fault leaves the state after Fetch. -/
theorem irHoldsTheFetchedWord : Obligations.IrHoldsTheFetchedWord := by
  intro s
  refine ⟨fun t ht => ?_, fun op left hf => ?_⟩
  · obtain ⟨-, rfl⟩ := step_next ht
    exact effect_ir _ _
  · obtain ⟨-, rfl⟩ := step_fault_eq hf
    rfl

/-- Settles O35: Fetch and Decode do not look at `signal`, and the effect of a defined opcode value overwrites it. -/
theorem signalIsNeverRead : Obligations.SignalIsNeverRead := by
  intro s t x ht
  have hsafe : State.safe { s with signal := x } := (safe_iff_exists_next s).mpr ⟨t, ht⟩
  obtain ⟨hdef, rfl⟩ := step_next ht
  rw [step_of_safe hsafe]
  exact congrArg Host.Outcome.next (effect_of_signal hdef (fetch s) x)

/-! ### The canonical form of the store -/

theorem step_next_inv {s t : State} (hs : s.Inv) (h : step s = .next t) : t.Inv := by
  obtain ⟨-, rfl⟩ := step_next h
  exact effect_inv (nextInstr s) (s := fetch s) hs

theorem step_fault_inv {s left : State} {op : Opcode} (hs : s.Inv) (h : step s = .fault (.illegalOpcode op left)) :
    left.Inv := by
  obtain ⟨-, rfl⟩ := step_fault_eq h
  exact hs

theorem Session.cycle_inv {x y : Session} (hx : x.state.Inv) (h : x.cycle = some y) : y.state.Inv := by
  obtain ⟨-, ⟨t, ht, rfl⟩ | ⟨op, left, hf, rfl⟩⟩ := Session.cycle_cases h
  · exact step_next_inv hx ht
  · exact step_fault_inv hx hf

theorem Session.load_inv {x y : Session} {n : Line} {w : Word} (hx : x.state.Inv) (h : x.load n w = some y) :
    y.state.Inv := by
  obtain ⟨missing, s, rfl, rfl⟩ := Session.load_cases h
  exact memWrite_wf n w hx

/-- Settles O39: a cycle keeps the form whether it completes or faults, so by the induction over a run every number of
cycles does; a reset empties the store, and a load writes one of the 32 lines. -/
theorem hostMovesKeepTheStoreCanonical : Obligations.HostMovesKeepTheStoreCanonical :=
  fun x hx => ⟨fun k => Session.drive_induction (fun _ _ => Session.cycle_inv) k x hx, initial_wf _,
    fun _ _ _ => Session.load_inv hx⟩

/-- Settles O40: the reset store lists no line. -/
theorem resetStoreIsCanonical : Obligations.ResetStoreIsCanonical :=
  ⟨initial_wf, initial_wf Config.resetVariant⟩

/-- R23: with `IP` 0 the first Fetch reads line 1. -/
theorem nextLine_initial (v : Variant) : nextLine (State.initial v) = 1 := rfl

/-- Settles O41: reset is `State.initial`, of which nothing but the variant is a choice. -/
theorem resetZeroesTheMachineState : Obligations.ResetZeroesTheMachineState :=
  have hinitial (v : Variant) : (∀ l : Line, memRead (State.initial v) l = 0) ∧ (State.initial v).a = 0 ∧
      (State.initial v).ip = 0 ∧ (State.initial v).ir = 0 ∧ nextLine (State.initial v) = 1 :=
    ⟨memRead_initial v, initial_a v, initial_ip v, initial_ir v, nextLine_initial v⟩
  ⟨hinitial, hinitial Config.resetVariant⟩

/-! ### The windows of the host's moves -/

/-- R142: the first cycle, completed or faulted, ends the loader's window. -/
theorem Session.load_after_cycle {x y : Session} (h : x.cycle = some y) (n : Line) (w : Word) : y.load n w = none := by
  obtain ⟨-, ⟨t, -, rfl⟩ | ⟨op, left, -, rfl⟩⟩ := Session.cycle_cases h <;> rfl

/-- Settles O43: inside the window a load is one `MemWrite` and one line missing no more; the window ends with the first
cycle, and no cycle opens it again. -/
theorem loaderWritesOnlyBeforeTheFirstCycle : Obligations.LoaderWritesOnlyBeforeTheFirstCycle := by
  refine ⟨fun missing s n w => ?_, fun x y n w hc => Session.load_after_cycle hc n w, fun k x n w => ?_⟩
  · refine ⟨missing.filter (· ≠ n), memWrite s n w, rfl, memRead_memWrite_same s n w,
      fun l => memRead_memWrite_other s w, rfl, rfl, rfl, rfl, rfl, fun l => ?_⟩
    rw [List.mem_filter, decide_eq_true_eq]
  · exact Session.drive_induction (P := fun y => y.load n w = none)
      (fun _ _ _ hc => Session.load_after_cycle hc n w) k x

theorem line_ofNat_toNat (l : Line) : BitVec.ofNat 5 l.toNat = l := by
  rw [BitVec.ofNat_toNat, BitVec.setWidth_eq]

theorem mem_allLines (l : Line) : l ∈ allLines :=
  List.mem_map.mpr ⟨l.toNat, List.mem_range.mpr (line_lt_storeLen l), line_ofNat_toNat l⟩

theorem Session.mayCycle_loading_of_ne_nil {missing : List Line} (h : missing ≠ []) (s : State) :
    (Session.loading missing s).mayCycle = false :=
  List.isEmpty_eq_false_iff.mpr h

/-- Settles O44: the driver's window before the first cycle is that no line is missing, and at reset all of them are. -/
theorem noCycleBeforeLaunch : Obligations.NoCycleBeforeLaunch := by
  have hclosed {missing : List Line} (hm : missing ≠ []) (s : State) := Session.mayCycle_loading_of_ne_nil hm s
  refine ⟨fun k missing s hm => ⟨Session.cycle_none (hclosed hm s), Session.drive_stays (hclosed hm s) k⟩,
    fun v => ⟨mem_allLines, rfl, ?_⟩, fun s => Session.cycle_some rfl⟩
  exact Session.cycle_none (hclosed (List.ne_nil_of_mem (mem_allLines 0)) _)

/-- Settles O47: the observation lists the words read at 0 to 31, and every line is one of these. -/
theorem observeShowsTheMachineState : Obligations.ObserveShowsTheMachineState := by
  intro x
  refine ⟨by simp [Session.observe, Config.storeLen], fun l => ?_, rfl, rfl, rfl⟩
  have hl : l.toNat < Config.storeLen := line_lt_storeLen l
  simp [Session.observe, memRead, hl]

/-! ### The launch -/

/-- What every `MemWrite` keeps, loading an image keeps. -/
theorem loadFrom_induction {P : State → Prop} (hwrite : ∀ s l w, P s → P (memWrite s l w)) (ws : List Word) :
    ∀ (n : Nat) (s : State), P s → P (loadFrom n ws s) := by
  induction ws with
  | nil => exact fun _ _ h => h
  | cons w rest ih => exact fun n s h => ih (n + 1) _ (hwrite s _ w h)

theorem loadFrom_launched {s : State} (h : s.launched) (n : Nat) (ws : List Word) : (loadFrom n ws s).launched :=
  loadFrom_induction (P := State.launched) (fun _ _ _ h => h) ws n s h

theorem loadFrom_variant (n : Nat) (ws : List Word) (s : State) : (loadFrom n ws s).variant = s.variant :=
  loadFrom_induction (P := fun t => t.variant = s.variant) (fun _ _ _ h => h) ws n s rfl

theorem loadFrom_inv {s : State} (h : s.Inv) (n : Nat) (ws : List Word) : (loadFrom n ws s).Inv :=
  loadFrom_induction (P := State.Inv) (fun _ l w h => memWrite_wf l w h) ws n s h

/-- A line below the first one loaded reads as before. -/
theorem memRead_loadFrom_below (ws : List Word) : ∀ (n : Nat) (s : State) (l : Line), n + ws.length ≤ 32 →
    l.toNat < n → memRead (loadFrom n ws s) l = memRead s l := by
  induction ws with
  | nil => exact fun _ _ _ _ _ => rfl
  | cons w rest ih =>
    intro n s l hn hl
    rw [List.length_cons] at hn
    have hne : l ≠ BitVec.ofNat 5 n := by
      rintro rfl
      rw [BitVec.toNat_ofNat] at hl
      omega
    rw [loadFrom, ih (n + 1) _ l (by omega) (by omega), memRead_memWrite_other s w hne]

/-- Word `k` of those loaded from line `n` on is at line `n + k`: the load at line `n` writes it if `k = 0`, and no later
load, which is above that line, changes it. -/
theorem memRead_loadFrom (ws : List Word) : ∀ (n : Nat) (s : State) (k : Nat), n + ws.length ≤ 32 →
    k < ws.length → some (memRead (loadFrom n ws s) (BitVec.ofNat 5 (n + k))) = ws[k]? := by
  induction ws with
  | nil => exact fun _ _ _ _ hk => absurd hk (Nat.not_lt_zero _)
  | cons w rest ih =>
    intro n s k hn hk
    rw [List.length_cons] at hn hk
    rw [loadFrom]
    cases k with
    | zero =>
      have hlt : (BitVec.ofNat 5 n).toNat < n + 1 := by rw [BitVec.toNat_ofNat]; omega
      rw [Nat.add_zero n, memRead_loadFrom_below rest (n + 1) _ _ (by omega) hlt, memRead_memWrite_same,
        List.getElem?_cons_zero]
    | succ k =>
      have hline : n + (k + 1) = n + 1 + k := by omega
      rw [hline, List.getElem?_cons_succ, ih (n + 1) _ k (by omega) (by omega)]

theorem memRead_launch (v : Variant) {image : List Word} (h : image.length = 32) (l : Line) :
    some (memRead (launch v image) l) = image[l.toNat]? := by
  have hl : l.toNat < image.length := h ▸ l.isLt
  have hread := memRead_loadFrom image 0 (State.initial v) l.toNat (by omega) hl
  rwa [Nat.zero_add, line_ofNat_toNat] at hread

/-- Settles O48: reset meets the launch premises and is canonical, the loads keep both, and each line holds its word. -/
theorem launchHoldsTheImage : Obligations.LaunchHoldsTheImage :=
  fun v image h => ⟨loadFrom_launched ⟨rfl, rfl, rfl, rfl⟩ 0 image, loadFrom_variant 0 image (State.initial v),
    loadFrom_inv (initial_wf v) 0 image, memRead_launch v h⟩

end Sys2Proof.Machine
end

section
/-! The store (spec/20_memory.md): a write changes one word, a store is seen by the very next fetch, and a cycle keeps
the canonical form. -/

namespace Sys2Proof.Machine

/-! ### The canonical form over a cycle -/

/-- Settles O38: Fetch leaves the store alone, each instruction's effect keeps the form, STO and STN because they write
one of the 32 lines, and a fault leaves the state after Fetch. -/
theorem cycleKeepsTheStoreCanonical : Obligations.CycleKeepsTheStoreCanonical :=
  fun _ hs => ⟨fun _ => step_next_inv hs, fun _ _ => step_fault_inv hs⟩

/-! ### A store and the fetch that follows it -/

/-- R56, R77: an instruction that is none of the five undefined values is defined for the variant that decoded it, since
Original decodes only the values below 8. -/
theorem safe_of_opcode_lt {s : State} (h : (nextInstr s).opcode.toNat < 11) : s.safe := by
  rw [nextInstr, decode_opcode] at h
  rw [State.safe]
  cases hv : s.variant with
  | original =>
    rw [opcodeDefined_original, opcodeField_original_toNat]
    exact Nat.mod_lt _ (by decide)
  | extended =>
    rw [hv] at h
    exact opcodeDefined_extended.mpr h

/-- R110: the effect of STO is one `MemWrite` and the signal. -/
theorem effect_sto (m : AddrMode) (l : Line) (s : State) :
    effect (.sto m l) s = writeSignal (memWrite s l s.a) .cont := rfl

/-- R111: the effect of STN is one `MemWrite` and the signal. -/
theorem effect_stn (m : AddrMode) (l : Line) (s : State) :
    effect (.stn m l) s = writeSignal (memWrite s l (negate s.a)) .cont := rfl

/-- R44: a cycle whose effect is one `MemWrite` completes with `IR` still the word fetched, and the next cycle runs the
word written where it fetches the line written. -/
theorem step_of_effect_memWrite {s : State} {l : Line} {v : Word} (hsafe : s.safe)
    (heffect : effect (nextInstr s) (fetch s) = writeSignal (memWrite (fetch s) l v) .cont) :
    ∃ t, step s = .next t ∧ t.ir = nextWord s ∧ memRead t l = v ∧
      (nextLine t = l → (fetch t).ir = v ∧ step t = exec (decode s.variant v) (fetch t)) := by
  have hstep : step s = .next (writeSignal (memWrite (fetch s) l v) .cont) := heffect ▸ step_of_safe hsafe
  have hread : memRead (writeSignal (memWrite (fetch s) l v) .cont) l = v := by
    rw [memRead_writeSignal, memRead_memWrite_same]
  refine ⟨_, hstep, rfl, hread, fun hl => ?_⟩
  have hir : (fetch (writeSignal (memWrite (fetch s) l v) .cont)).ir = v := by rw [fetch_ir, hl, hread]
  exact ⟨hir, by rw [step, hir, writeSignal_variant, memWrite_variant, fetch_variant]⟩

/-- Settles O29: both stores are defined where they are decoded, and the effect of each is one `MemWrite` at its line. -/
theorem storeIsSeenByTheNextFetch : Obligations.StoreIsSeenByTheNextFetch := by
  intro m l s
  constructor
  · intro h
    have hlt : (nextInstr s).opcode.toNat < 11 := by simp [h, Instr.opcode]
    exact step_of_effect_memWrite (safe_of_opcode_lt hlt) (by rw [h, effect_sto, fetch_a])
  · intro h
    have hlt : (nextInstr s).opcode.toNat < 11 := by simp [h, Instr.opcode]
    exact step_of_effect_memWrite (safe_of_opcode_lt hlt) (by rw [h, effect_stn, fetch_a])

/-! ### One write -/

/-- Settles O10: the line written reads the word, every other line reads as before, and no register is written. -/
theorem memWriteChangesOneWord : Obligations.MemWriteChangesOneWord :=
  fun s l v => ⟨memRead_memWrite_same s l v, fun _ => memRead_memWrite_other s v, memWrite_a s l v,
    memWrite_ip s l v, memWrite_ir s l v⟩

end Sys2Proof.Machine
end

section
/-! The encoding (spec/30_encoding.md): encode and decode as inverses up to the ignored bits, what bits 16 and 31 make of
a word under the two variants, the undefined opcode values, and Original, where every word is an instruction. -/

namespace Sys2Proof

/-! ### The instructions a format can express -/

theorem Instr.opcodeFits_original (i : Instr) : i.opcodeFits .original = decide (i.opcode.toNat < 8) := by
  cases i <;> rfl

/-- R51: Original expresses the opcode values of its 3-bit field, in direct mode. -/
theorem Instr.wellFormed_original {i : Instr} :
    i.wellFormed .original = true ↔ i.opcode.toNat < 8 ∧ i.mode = .direct := by
  simp only [Instr.wellFormed, Instr.opcodeFits_original, Instr.modeFits, Bool.and_eq_true, decide_eq_true_eq,
    beq_iff_eq]

/-- R52: Extended expresses every Decoded Instruction. -/
theorem Instr.wellFormed_extended (i : Instr) : i.wellFormed .extended = true := rfl

@[simp] theorem modeField_original (w : Word) : modeField .original w = .direct := rfl

theorem opcodeField_original_lt (w : Word) : (opcodeField .original w).toNat < 8 := by
  rw [opcodeField_original_toNat]
  exact Nat.mod_lt _ (by decide)

/-- R76: what Decode of a variant produces, its format can express. -/
theorem decode_wellFormed (v : Variant) (w : Word) : (decode v w).wellFormed v = true := by
  cases v with
  | original =>
    rw [Instr.wellFormed_original, decode_opcode, decode_mode]
    exact ⟨opcodeField_original_lt w, modeField_original w⟩
  | extended => exact Instr.wellFormed_extended _

/-! ### Decode of the canonical word -/

theorem opcode_and_seven {op : Opcode} (h : op.toNat < 8) : op &&& 7 = op := by
  apply BitVec.eq_of_toNat_eq
  exact (Nat.and_two_pow_sub_one_eq_mod op.toNat 3).trans (Nat.mod_eq_of_lt h)

/-- R61: the canonical word decodes to the instruction it encodes, under every variant that can express it. -/
theorem decode_encode {v : Variant} {i : Instr} (h : i.wellFormed v = true) : decode v (encode i) = i := by
  obtain ⟨hop, hmode, hline⟩ := Laws.EncodeFields.all i
  cases v with
  | original =>
    obtain ⟨hlt, hdirect⟩ := Instr.wellFormed_original.mp h
    have hop' : opcodeField .original (encode i) = i.opcode :=
      (opcodeField_original_encodeFields _ _ _).trans (opcode_and_seven hlt)
    rw [decode, hop', modeField_original, hline, ← hdirect, Instr.ofFields_self]
  | extended => rw [decode, hop, hmode, hline, Instr.ofFields_self]

/-! ### The canonical word as a number -/

theorem AddrMode.bit_toNat_shiftLeft (m : AddrMode) :
    (m.bit <<< 31).toNat = if m = .immediate then 2 ^ 31 else 0 := by
  cases m <;> rfl

theorem opcode_shiftLeft_toNat (op : Opcode) : (op.setWidth 32 <<< 13 : Word).toNat = op.toNat * 2 ^ 13 := by
  have hop := op.isLt
  rw [BitVec.toNat_shiftLeft, BitVec.toNat_setWidth, Nat.shiftLeft_eq]
  omega

/-- Joining a word with `k` low bits clear to one below `2 ^ k` adds them. -/
theorem toNat_or_of_dvd {x y : Word} {k : Nat} (hx : 2 ^ k ∣ x.toNat) (hy : y.toNat < 2 ^ k) :
    (x ||| y).toNat = x.toNat + y.toNat := by
  obtain ⟨c, hc⟩ := hx
  rw [BitVec.toNat_or, hc, Nat.two_pow_add_eq_or_of_lt hy]

/-- R61: the three fields do not overlap, so joining them adds them. -/
theorem encodeFields_toNat (op : Opcode) (m : AddrMode) (l : Line) :
    (encodeFields op m l).toNat = (if m = .immediate then 2 ^ 31 else 0) + op.toNat * 2 ^ 13 + l.toNat := by
  have hop : op.toNat < 2 ^ 4 := op.isLt
  have hl : l.toNat < 2 ^ 5 := l.isLt
  have hline : (l.setWidth 32).toNat = l.toNat := BitVec.toNat_setWidth_of_le (by decide)
  have hlow : (op.setWidth 32 <<< 13 ||| l.setWidth 32 : Word).toNat = op.toNat * 2 ^ 13 + l.toNat := by
    rw [toNat_or_of_dvd (k := 13) (opcode_shiftLeft_toNat op ▸ Nat.dvd_mul_left _ _) (by omega), hline,
      opcode_shiftLeft_toNat]
  have hmode : 2 ^ 31 ∣ (m.bit <<< 31).toNat := by cases m <;> decide
  rw [encodeFields, BitVec.or_assoc, toNat_or_of_dvd hmode (by omega), hlow, AddrMode.bit_toNat_shiftLeft,
    Nat.add_assoc]

/-! ### The word of a decoded instruction -/

/-- The place of the addressing-mode bit, which Original has not (R51, R52). -/
def modeMask : Variant → Word
  | .original => 0x00000000#32
  | .extended => 0x80000000#32

/-- The place of the opcode field (R51, R52). -/
def opcodeMask : Variant → Word
  | .original => 0x0000E000#32
  | .extended => 0x0001E000#32

/-- The place of the line, the same in both formats (R51, R52). -/
def lineMask : Word := 0x0000001F#32

/-- The bits Decode extracts; the others are ignored (R53). -/
def fieldMask (v : Variant) : Word :=
  modeMask v ||| opcodeMask v ||| lineMask

theorem fieldMask_original : fieldMask .original = 0x0000E01F#32 := rfl
theorem fieldMask_extended : fieldMask .extended = 0x8001E01F#32 := rfl

theorem modeField_in_place (v : Variant) (w : Word) : (modeField v w).bit <<< 31 = w &&& modeMask v := by
  cases v with
  | original =>
    rw [modeField_original, modeMask, BitVec.and_zero]
    decide
  | extended =>
    have hmask : modeMask .extended = BitVec.twoPow 32 31 := by decide
    rw [hmask, BitVec.and_twoPow, modeField]
    cases w.getLsbD 31 <;> decide

theorem opcodeField_in_place (v : Variant) (w : Word) :
    (opcodeField v w).setWidth 32 <<< 13 = w &&& opcodeMask v := by
  apply BitVec.eq_of_getLsbD_eq
  intro j hj
  cases v <;> interval_cases j <;> simp [opcodeField, opcodeMask]

theorem lineField_in_place (w : Word) : (lineField w).setWidth 32 = w &&& lineMask := by
  apply BitVec.eq_of_getLsbD_eq
  intro j hj
  interval_cases j <;> simp [lineField, lineMask]

/-- R61: encoding a decoded word clears exactly the ignored bits. -/
theorem encode_decode (v : Variant) (w : Word) : encode (decode v w) = w &&& fieldMask v := by
  rw [encode, encodeFields, decode_opcode, decode_mode, decode_line, modeField_in_place, opcodeField_in_place,
    lineField_in_place, fieldMask, BitVec.and_or_distrib_left, BitVec.and_or_distrib_left]

/-- R53: the ignored bits are exactly those outside the mask. -/
theorem decode_eq_iff (v : Variant) (w w' : Word) :
    decode v w = decode v w' ↔ w &&& fieldMask v = w' &&& fieldMask v := by
  rw [← encode_decode, ← encode_decode]
  refine ⟨congrArg encode, fun h => ?_⟩
  rw [← decode_encode (decode_wellFormed v w), h, decode_encode (decode_wellFormed v w')]

/-! ### Bits 16 and 31 -/

theorem getLsbD_16 (w : Word) : w.getLsbD 16 = decide (w.toNat / 2 ^ 16 % 2 = 1) :=
  Nat.testBit_eq_decide_div_mod_eq

/-- R54: bit 16 is the high bit of the Extended opcode field, and the rest of that field is the Original one. -/
theorem opcodeField_extended_eq_add (w : Word) :
    (opcodeField .extended w).toNat = (opcodeField .original w).toNat + if w.getLsbD 16 then 8 else 0 := by
  rw [opcodeField_extended_toNat, opcodeField_original_toNat, getLsbD_16]
  simp only [decide_eq_true_eq]
  split <;> omega

theorem decode_eq_of_bits_clear {w : Word} (h16 : w.getLsbD 16 = false) (h31 : w.getLsbD 31 = false) :
    decode .original w = decode .extended w := by
  have hop : opcodeField .original w = opcodeField .extended w := by
    apply BitVec.eq_of_toNat_eq
    rw [opcodeField_extended_eq_add, h16]
    rfl
  have hmode : modeField .extended w = .direct := by rw [modeField, h31]; rfl
  rw [decode, decode, hop, hmode, modeField_original]

end Sys2Proof

namespace Sys2Proof.Machine

/-! ### The undefined opcode values, and Original, which has none -/

/-- R59, R77: an undefined value of the Extended field is the fault on every state, whatever the mode and the line. -/
theorem exec_of_eleven_le {i : Instr} (h : 11 ≤ i.opcode.toNat) (s : State) :
    exec i s = .fault (.illegalOpcode i.opcode s) := by
  rw [exec_eq, opcodeDefined_false h]
  rfl

/-- R58: every value of Original's opcode field is an instruction's. -/
theorem safe_of_original {s : State} (h : s.variant = .original) : s.safe := by
  apply safe_of_opcode_lt
  rw [nextInstr, decode_opcode, h]
  exact lt_trans (opcodeField_original_lt _) (by decide)

theorem Session.cycle_unfaulted_of_original {x y : Session} (hv : x.state.variant = .original)
    (h : x.cycle = some y) : y.unfaulted = true := by
  obtain ⟨-, ⟨t, -, rfl⟩ | ⟨op, left, hf, -⟩⟩ := Session.cycle_cases h
  · rfl
  · exact absurd (safe_of_original hv) (not_safe_of_step_fault hf)

/-! ### The obligations -/

/-- Settles O1: each format's instructions survive the round trip through the canonical word, whose fields do not
overlap; encoding a decoded word keeps the bits of the mask, and bit 5 is in neither variant's. -/
theorem decodeOfEncodeIsTheInstruction : Obligations.DecodeOfEncodeIsTheInstruction := by
  refine ⟨fun _ _ => decode_encode, fun i => encodeFields_toNat i.opcode i.mode i.line,
    fieldMask_original ▸ encode_decode .original, fieldMask_extended ▸ encode_decode .extended,
    fun v => ⟨0x00000020, ?_⟩⟩
  rw [encode_decode]
  cases v <;> decide

/-- Settles O14: every word Original fetches is an instruction, so a cycle completes; a run keeps the variant, so none
of its cycles faults. -/
theorem originalNeverFaults : Obligations.OriginalNeverFaults := by
  refine ⟨fun s hs => ⟨_, step_of_safe (safe_of_original hs)⟩, fun k x hv hx => ?_⟩
  obtain ⟨-, hdrive⟩ := Session.drive_induction (P := fun y => y.state.variant = .original ∧ y.unfaulted = true)
    (fun _ _ ⟨hy, _⟩ hc => ⟨(Session.cycle_variant hc).trans hy, Session.cycle_unfaulted_of_original hy hc⟩)
    k x ⟨hv, hx⟩
  exact hdrive

/-- Settles O2: the masks are those of `encode_decode`. -/
theorem decodeSeesExactlyTheFieldBits : Obligations.DecodeSeesExactlyTheFieldBits :=
  ⟨fieldMask_original ▸ decode_eq_iff .original, fieldMask_extended ▸ decode_eq_iff .extended⟩

/-- Settles O5: bit 16 adds 8 to the Extended opcode value, and bit 31 is the Extended mode. -/
theorem variantsDifferOnlyInBits16And31 : Obligations.VariantsDifferOnlyInBits16And31 := by
  intro w
  refine ⟨fun h16 => ?_, fun h31 => ?_, decode_eq_of_bits_clear⟩
  · rw [decode_opcode, decode_opcode, opcodeField_extended_eq_add, h16]
    exact ⟨Nat.le_add_left _ _, opcodeField_original_lt w⟩
  · rw [decode_mode, decode_mode, modeField_original, modeField, h31]
    exact ⟨rfl, rfl⟩

/-- Settles O6: Decode gives the value of bits 16:13, and Execute of 11 or more is the fault. -/
theorem undefinedOpcodesDecodeAndFault : Obligations.UndefinedOpcodesDecodeAndFault := by
  refine ⟨fun w hw s => ?_, fun m l s => ⟨exec_illegal11 m l s, exec_illegal12 m l s, exec_illegal13 m l s,
    exec_illegal14 m l s, exec_illegal15 m l s⟩⟩
  have hop : (decode .extended w).opcode.toNat = w.toNat / 2 ^ 13 % 16 := by
    rw [decode_opcode, opcodeField_extended_toNat]
  have hvalue : BitVec.ofNat 4 (w.toNat / 2 ^ 13) = (decode .extended w).opcode := by
    apply BitVec.eq_of_toNat_eq
    rw [hop, BitVec.toNat_ofNat]
  rw [hvalue]
  exact exec_of_eleven_le (hop ▸ hw) s

/-- Settles O4: fourteen words, each decoded. -/
theorem specWordsDecodeAsListed : Obligations.SpecWordsDecodeAsListed := by
  unfold Obligations.SpecWordsDecodeAsListed
  decide

end Sys2Proof.Machine
end

section
/-! The program-image text (spec/30_encoding.md R62): a text line and its value determine each other, first character
bit 0, and the words of an image are those of its lines in their order. -/

namespace Sys2Proof.Machine

/-! ### One character -/

/-- The character of a bit, as `textOfWord` writes it (R62). -/
def charOfBit (b : Bool) : Char :=
  if b then '1' else '0'

@[simp] theorem bitOfChar_charOfBit (b : Bool) : bitOfChar (charOfBit b) = some b.toNat := by
  cases b <;> rfl

theorem bitOfChar_eq_some {c : Char} {n : Nat} (h : bitOfChar c = some n) : ∃ b, c = charOfBit b ∧ n = b.toNat := by
  unfold bitOfChar at h
  split at h
  next hc => injection h with h; exact ⟨false, hc, h.symm⟩
  next =>
    split at h
    next hc => injection h with h; exact ⟨true, hc, h.symm⟩
    next => cases h

/-! ### One text line -/

/-- The text of the low `k` bits of a number, first bit first (R62); 32 of them are the text of a word. -/
def textOfBits (k x : Nat) : List Char :=
  (List.range k).map fun j => charOfBit (x.testBit j)

theorem textOfWord_eq_textOfBits (w : Word) : textOfWord w = textOfBits 32 w.toNat := rfl

@[simp] theorem textOfBits_length (k x : Nat) : (textOfBits k x).length = k := by
  simp [textOfBits]

theorem textOfBits_succ (k x : Nat) : textOfBits (k + 1) x = charOfBit (x.testBit 0) :: textOfBits k (x / 2) := by
  simp [textOfBits, List.range_succ_eq_map, Nat.testBit_add_one]

/-- The text shows no more than the `k` bits it has. -/
theorem textOfBits_mod (k x : Nat) : textOfBits k (x % 2 ^ k) = textOfBits k x := by
  refine List.map_congr_left fun j hj => ?_
  rw [Nat.testBit_mod_two_pow, decide_eq_true (List.mem_range.mp hj), Bool.true_and]

theorem valueOfText_cons {c : Char} {rest : List Char} {n : Nat} :
    valueOfText (c :: rest) = some n ↔ ∃ b m, bitOfChar c = some b ∧ valueOfText rest = some m ∧ n = b + 2 * m := by
  cases hb : bitOfChar c <;> cases hm : valueOfText rest <;> simp [valueOfText, hb, hm, eq_comm]

/-- The text of `k` bits reads back as their value. -/
theorem valueOfText_textOfBits (k : Nat) : ∀ x, valueOfText (textOfBits k x) = some (x % 2 ^ k) := by
  induction k with
  | zero => exact fun x => by rw [pow_zero, Nat.mod_one]; rfl
  | succ k ih =>
    intro x
    have hbit : (x.testBit 0).toNat = x % 2 := by
      rw [Nat.toNat_testBit, pow_zero, Nat.div_one]
    rw [textOfBits_succ, valueOfText_cons]
    exact ⟨_, _, bitOfChar_charOfBit _, ih (x / 2), by rw [hbit, pow_succ', Nat.mod_mul]⟩

/-- A text line that has a value is the text of that value. -/
theorem textOfBits_of_valueOfText {cs : List Char} : ∀ {n}, valueOfText cs = some n → textOfBits cs.length n = cs := by
  induction cs with
  | nil => exact fun _ => rfl
  | cons c rest ih =>
    intro n h
    obtain ⟨_, m, hb, hm, rfl⟩ := valueOfText_cons.mp h
    obtain ⟨b, rfl, rfl⟩ := bitOfChar_eq_some hb
    have hbit : (b.toNat + 2 * m).testBit 0 = b := by cases b <;> simp
    have hhalf : (b.toNat + 2 * m) / 2 = m := by have := b.toNat_lt; omega
    rw [List.length_cons, textOfBits_succ, hbit, hhalf, ih hm]

theorem wordOfText_eq_some {cs : List Char} {w : Word} :
    wordOfText cs = some w ↔ cs.length = 32 ∧ ∃ n, valueOfText cs = some n ∧ BitVec.ofNat 32 n = w := by
  simp [wordOfText]

theorem wordOfText_textOfWord (w : Word) : wordOfText (textOfWord w) = some w := by
  rw [textOfWord_eq_textOfBits, wordOfText_eq_some]
  refine ⟨textOfBits_length _ _, _, valueOfText_textOfBits 32 _, ?_⟩
  rw [Nat.mod_eq_of_lt w.isLt, BitVec.ofNat_toNat, BitVec.setWidth_eq]

theorem textOfWord_of_wordOfText {cs : List Char} {w : Word} (h : wordOfText cs = some w) : textOfWord w = cs := by
  obtain ⟨hlen, n, hn, rfl⟩ := wordOfText_eq_some.mp h
  rw [textOfWord_eq_textOfBits, BitVec.toNat_ofNat, textOfBits_mod, ← hlen, textOfBits_of_valueOfText hn]

/-! ### The lines of an image -/

theorem wordsOfText_cons {cs : List Char} {rest : List (List Char)} {ws : List Word} :
    wordsOfText (cs :: rest) = some ws ↔
      ∃ w ws', wordOfText cs = some w ∧ wordsOfText rest = some ws' ∧ ws = w :: ws' := by
  cases hw : wordOfText cs <;> cases hr : wordsOfText rest <;> simp [wordsOfText, hw, hr, eq_comm]

/-- The words of an image are those of its lines, in their order. -/
theorem map_wordOfText_of_wordsOfText {lines : List (List Char)} :
    ∀ {ws}, wordsOfText lines = some ws → lines.map wordOfText = ws.map some := by
  induction lines with
  | nil => exact fun h => by injection h with h; rw [← h]; rfl
  | cons cs rest ih =>
    intro ws h
    obtain ⟨w, ws', hw, hrest, rfl⟩ := wordsOfText_cons.mp h
    rw [List.map_cons, List.map_cons, hw, ih hrest]

theorem exists_wordsOfText_iff {lines : List (List Char)} :
    (∃ ws, wordsOfText lines = some ws) ↔ ∀ cs ∈ lines, ∃ w, wordOfText cs = some w := by
  induction lines with
  | nil => simp [wordsOfText]
  | cons cs rest ih =>
    rw [List.forall_mem_cons, ← ih]
    constructor
    · rintro ⟨_, h⟩
      obtain ⟨w, ws, hw, hrest, -⟩ := wordsOfText_cons.mp h
      exact ⟨⟨w, hw⟩, ws, hrest⟩
    · rintro ⟨⟨w, hw⟩, ws, hrest⟩
      exact ⟨w :: ws, wordsOfText_cons.mpr ⟨w, ws, hw, hrest, rfl⟩⟩

theorem imageOfText_eq_some {lines : List (List Char)} {ws : List Word} :
    imageOfText lines = some ws ↔ lines.length = 32 ∧ wordsOfText lines = some ws :=
  Option.ite_none_right_eq_some

/-! ### The obligations -/

/-- Settles O50: the text of a word is that of its 32 bits, which a line's value and its characters determine both
ways. -/
theorem textLineIsBitZeroFirst : Obligations.TextLineIsBitZeroFirst := by
  refine ⟨fun w => ⟨textOfBits_length 32 w.toNat, fun j hj => ?_, wordOfText_textOfWord w⟩,
    fun _ _ => textOfWord_of_wordOfText⟩
  simp [textOfWord, hj]

/-- Settles O51: the image's words are its lines' words in their order, and exist where each of them does. -/
theorem imageLineIsTheWordOfItsIndex : Obligations.ImageLineIsTheWordOfItsIndex := by
  constructor
  · intro lines
    simp only [imageOfText_eq_some, exists_and_left, exists_wordsOfText_iff]
  · intro lines ws h
    obtain ⟨hlen, hwords⟩ := imageOfText_eq_some.mp h
    have hmap := map_wordOfText_of_wordsOfText hwords
    refine ⟨by simpa [hlen] using (congrArg List.length hmap).symm, fun n => ?_⟩
    have hn : (lines[n]?).map wordOfText = (ws[n]?).map some := by
      rw [← List.getElem?_map, hmap, List.getElem?_map]
    simpa [Option.bind_map] using congrArg (·.bind id) hn

end Sys2Proof.Machine
end

section
/-! The cycle (spec/40_cycle.md): the fields Decode extracts, the operations Fetch and Execute share, the check of the
opcode value, the signal a cycle returns, and the end of the run. -/

namespace Sys2Proof.Machine

/-! ### Negation -/

/-- R70: complement plus one is the negation of the bit-vector library. -/
theorem negate_eq_neg (x : Word) : negate x = -x :=
  (BitVec.neg_eq_not_add x).symm

/-! ### Fetch -/

theorem word_add_one_toNat (x : Word) : (x + 1).toNat = (x.toNat + 1) % 2 ^ 32 :=
  BitVec.toNat_add x 1

/-- R72: the line the next Fetch reads, with no wrap of the 32-bit `IP` to think of, since 32 divides 2^32. -/
theorem nextLine_eq_ofNat (s : State) : nextLine s = BitVec.ofNat 5 (s.ip.toNat + 1) := by
  apply BitVec.eq_of_toNat_eq
  rw [nextLine, lineOfIp, BitVec.toNat_setWidth, word_add_one_toNat, BitVec.toNat_ofNat]
  exact Nat.mod_mod_of_dvd _ (by decide)

/-- R81: a cycle, with the fetched word's line and the state after Fetch written out. -/
theorem step_eq_exec_decode (s : State) :
    step s = exec (decode s.variant (memRead s (BitVec.ofNat 5 (s.ip.toNat + 1))))
      { s with ip := s.ip + 1, ir := memRead s (BitVec.ofNat 5 (s.ip.toNat + 1)) } := by
  rw [← nextLine_eq_ofNat]
  rfl

/-! ### The check of the opcode value -/

theorem opcodeDefined_iff_lt (v : Variant) (op : Opcode) :
    opcodeDefined v op = true ↔ op.toNat < if v = .original then 8 else 11 := by
  cases v with
  | original => exact opcodeDefined_original
  | extended => exact opcodeDefined_extended

/-! ### The signal -/

/-- R93: STP's signal is Stop. -/
theorem effect_signal_stp (m : AddrMode) (l : Line) (s : State) : (effect (.stp m l) s).signal = some .stop := rfl

/-- R80: every defined opcode value but that of STP has Continue as its signal. -/
theorem effect_signal_of_not_stp {v : Variant} {i : Instr} (h : opcodeDefined v i.opcode = true)
    (hstp : ¬ ∃ m l, i = .stp m l) (s : State) : (effect i s).signal = some .cont := by
  cases i with
  | stp m l => exact absurd ⟨m, l, rfl⟩ hstp
  | illegal11 m l | illegal12 m l | illegal13 m l | illegal14 m l | illegal15 m l =>
    rw [opcodeDefined_false (by simp [Instr.opcode])] at h
    cases h
  | _ => rfl

/-! ### The driver's window in a run -/

theorem Session.mayCycle_running (s : State) : (Session.running s).mayCycle = true ↔ s.signal ≠ some .stop :=
  bne_iff_ne

/-- R84: after Stop the window is closed. -/
theorem Session.mayCycle_running_of_stop {s : State} (h : s.signal = some .stop) :
    (Session.running s).mayCycle = false :=
  Bool.eq_false_iff.mpr fun hm => (Session.mayCycle_running s).mp hm h

/-! ### The obligations -/

/-- Settles O3: Decode's fields are the word's, and each of these is a number of the word. -/
theorem decodeExtractsTheFields : Obligations.DecodeExtractsTheFields := by
  intro w
  simp only [decode_line, decode_opcode, decode_mode]
  exact ⟨lineField_toNat w, opcodeField_original_toNat w, modeField_original w, lineField_toNat w,
    opcodeField_extended_toNat w, modeField_extended w⟩

/-- Settles O12: Execute is the effect or the fault according to the check, and the check is the bound of the variant. -/
theorem executeFaultsExactlyOnUndefinedOpcodes : Obligations.ExecuteFaultsExactlyOnUndefinedOpcodes := by
  intro i s
  simp only [← opcodeDefined_iff_lt, exec_eq]
  by_cases h : opcodeDefined s.variant i.opcode = true
  · rw [if_pos h, if_pos h]
    exact ⟨effect i s, rfl⟩
  · rw [if_neg h, if_neg h]

/-- Settles O33: a cycle that completes had a defined opcode value; STP's effect signals Stop and every other one's
Continue. -/
theorem stopIsProducedByStpAlone : Obligations.StopIsProducedByStpAlone := by
  intro s t ht
  obtain ⟨hdef, rfl⟩ := step_next ht
  by_cases hstp : ∃ m l, nextInstr s = .stp m l
  · obtain ⟨m, l, hi⟩ := hstp
    simp [hi, effect_signal_stp]
  · simp [effect_signal_of_not_stp hdef hstp, hstp]

/-- Settles O45: Stop and a fault close the driver's window, and a running session without Stop has it open. -/
theorem noCycleAfterTheRunEnds : Obligations.NoCycleAfterTheRunEnds := by
  refine ⟨fun k s hs => ?_, fun k op s => ⟨Session.cycle_none rfl, Session.drive_stays rfl k⟩,
    fun s hs => Session.cycle_some ((Session.mayCycle_running s).mpr hs)⟩
  have hclosed := Session.mayCycle_running_of_stop hs
  exact ⟨Session.cycle_none hclosed, Session.drive_stays hclosed k⟩

/-- Settles O7: `negate` is the library's negation, and the corner cases are five words. -/
theorem negateIsTwosComplement : Obligations.NegateIsTwosComplement := by
  refine ⟨fun x => ?_, fun x => ?_, fun x => ?_, by decide⟩
  · rw [negate_eq_neg, BitVec.toNat_neg]
  · rw [negate_eq_neg, negate_eq_neg, BitVec.neg_neg]
  · rw [negate_eq_neg, BitVec.add_right_neg]
    rfl

/-- Settles O8: the increment is modulo 2^32, of which 32 is a divisor, so it is one modulo 32 on the low five bits. -/
theorem fetchIncrementsThenLoads : Obligations.FetchIncrementsThenLoads := by
  intro s
  have hip : (fetch s).ip.toNat = (s.ip.toNat + 1) % 2 ^ 32 := by rw [fetch_ip, word_add_one_toNat]
  refine ⟨hip, by rw [fetch_ir, nextLine_eq_ofNat], ?_, fetch_a s, memRead_fetch s, fetch_variant s⟩
  omega

/-- Settles O9: the three forms of an operand; widening a line keeps its value. -/
theorem operandIsStoreWordOrLiteral : Obligations.OperandIsStoreWordOrLiteral := by
  refine fun l s => ⟨operand_direct l s, fun hv => ?_, operand_original .immediate l⟩
  rw [operand_immediate l hv]
  exact BitVec.toNat_setWidth_of_le (by decide)

/-- Settles O11: the fetched word is decoded, and a canonical word decodes to the instruction it encodes. -/
theorem stepRunsTheDecodedInstruction : Obligations.StepRunsTheDecodedInstruction := by
  refine ⟨step_eq_exec_decode, fun s i hi hword => ?_⟩
  rw [step_eq_exec_decode, hword, decode_encode hi]

end Sys2Proof.Machine
end

section
/-! Control transfer (spec/41_control.md): the next state of JMP, JRP, SKN and STP with their words, and the line
executed next after every instruction. -/

namespace Sys2Proof

/-! ### The words of an opcode value both variants have -/

/-- R51, R52, R61: the line lies in the low bits of the canonical word, below everything else. -/
theorem encodeFields_eq_or_line (op : Opcode) (m : AddrMode) (l : Line) :
    encodeFields op m l = encodeFields op m 0 ||| l.setWidth 32 := by
  have hzero : (0 : Line).setWidth 32 = 0#32 := rfl
  rw [encodeFields, encodeFields, hzero, BitVec.or_zero]

theorem decode_encodeFields {v : Variant} {op : Opcode} {m : AddrMode} {l : Line}
    (h : (Instr.ofFields op m l).wellFormed v = true) : decode v (encodeFields op m l) = Instr.ofFields op m l := by
  obtain ⟨hop, hmode, hline⟩ := Instr.ofFields_fields op m l
  have hdecode := decode_encode h
  rwa [encode, hop, hmode, hline] at hdecode

/-- R51, R56: both variants express an opcode value below 8 in direct mode. -/
theorem Instr.wellFormed_ofFields_direct (v : Variant) {op : Opcode} (h : op.toNat < 8) (l : Line) :
    (Instr.ofFields op .direct l).wellFormed v = true := by
  obtain ⟨hop, hmode, -⟩ := Instr.ofFields_fields op .direct l
  cases v with
  | original => exact Instr.wellFormed_original.mpr ⟨by rwa [hop], hmode⟩
  | extended => exact Instr.wellFormed_extended _

/-- R61: the words of an opcode value below 8, given by its two words for line 0: direct in both variants, and immediate
in Extended. -/
theorem decode_words_of_opcode_lt {op : Opcode} {direct immediate : Word} (h : op.toNat < 8)
    (hd : encodeFields op .direct 0 = direct) (hi : encodeFields op .immediate 0 = immediate) (l : Line) :
    decode .original (direct ||| l.setWidth 32) = Instr.ofFields op .direct l ∧
    decode .extended (direct ||| l.setWidth 32) = Instr.ofFields op .direct l ∧
    decode .extended (immediate ||| l.setWidth 32) = Instr.ofFields op .immediate l := by
  rw [← hd, ← hi, ← encodeFields_eq_or_line, ← encodeFields_eq_or_line]
  exact ⟨decode_encodeFields (Instr.wellFormed_ofFields_direct .original h l),
    decode_encodeFields (Instr.wellFormed_ofFields_direct .extended h l),
    decode_encodeFields (Instr.wellFormed_extended _)⟩

end Sys2Proof

namespace Sys2Proof.Machine

/-! ### The instructions of both variants -/

/-- R56, R77: an instruction Original can express is defined in both variants, so Execute of it completes. -/
theorem exec_of_opcodeFits_original {i : Instr} (h : i.opcodeFits .original = true) (s : State) :
    exec i s = .next (effect i s) := by
  rw [Instr.opcodeFits_original, decide_eq_true_eq] at h
  rw [exec_eq, if_pos (opcodeDefined_common s.variant h)]

/-- R92: the effect of SKN, with its condition as a bound on the number in `A`. -/
theorem effect_skn (m : AddrMode) (l : Line) (s : State) :
    effect (.skn m l) s = { s with ip := if 2 ^ 31 ≤ s.a.toNat then s.ip + 1 else s.ip, signal := some .cont } := by
  simp only [effect, signBit_eq_decide, decide_eq_true_eq]

/-! ### The line a next `IP` leads to -/

/-- R72: Fetch adds 1 to the line of `IP`, modulo 32. -/
theorem nextLine_of_ip_eq {t : State} {ip : Word} (h : t.ip = ip) : nextLine t = lineOfIp ip + 1 := by
  rw [nextLine, h]
  exact lineOfIp_add ip 1

/-- R92: after a taken skip `IP` is one line past the instruction's own. -/
theorem lineOfIp_ip_add_two (s : State) : lineOfIp (s.ip + 2) = nextLine s + 1 := by
  have htwo : s.ip + 2 = s.ip + 1 + 1 := (BitVec.add_assoc s.ip 1 1).symm
  rw [htwo]
  exact lineOfIp_add (s.ip + 1) 1

/-! ### The obligations -/

/-- Settles O19: the line follows from the net change of `IP`, of which only the low five bits count; STP's Stop closes
the driver's window. -/
theorem nextLineFollowsTheTable : Obligations.NextLineFollowsTheTable := by
  intro s t ht
  have hip := (netChangeOfIp s).1 t ht
  obtain ⟨hstop, -⟩ := stopIsProducedByStpAlone s t ht
  cases hi : nextInstr s with
  | stp m l => exact Session.cycle_none (Session.mayCycle_running_of_stop (hstop.mpr ⟨m, l, hi⟩))
  | jmp m l =>
    rw [hi] at hip
    exact (nextLine_of_ip_eq hip).trans (lineOfIp_add _ 1).symm
  | jrp m l =>
    rw [hi] at hip
    exact (nextLine_of_ip_eq hip).trans (congrArg (· + 1) (lineOfIp_sub _ _))
  | skn m l =>
    rw [hi] at hip
    dsimp only at hip ⊢
    split_ifs at hip ⊢
    · rw [nextLine_of_ip_eq hip, lineOfIp_ip_add_two]
      exact BitVec.add_assoc (nextLine s) 1 1
    · exact nextLine_of_ip_eq hip
  | _ =>
    rw [hi] at hip
    exact nextLine_of_ip_eq hip

/-- Settles O15: JMP is defined in both variants, and its two words for line 0 are 0 and bit 31. -/
theorem jmpWritesOperandToIp : Obligations.JmpWritesOperandToIp := by
  refine ⟨fun m l => exec_of_opcodeFits_original (i := .jmp m l) rfl, fun l => ?_⟩
  have hwords := decode_words_of_opcode_lt (op := 0) (direct := 0#32) (by decide) (by decide) rfl l
  rwa [BitVec.zero_or] at hwords

/-- Settles O16: JRP is defined in both variants, and the subtraction of words is the bit-vector library's. -/
theorem jrpSubtractsOperandFromIp : Obligations.JrpSubtractsOperandFromIp := by
  refine ⟨fun m l => exec_of_opcodeFits_original (i := .jrp m l) rfl, fun x y => ?_,
    decode_words_of_opcode_lt (op := 1) (by decide) (by decide) (by decide)⟩
  have hy : y.toNat < 2 ^ 32 := y.isLt
  rw [BitVec.toNat_sub, Nat.add_comm x.toNat, Nat.sub_add_comm hy.le]

/-- Settles O17: SKN is defined in both variants, and bit 31 of `A` is its number being 2^31 or more. -/
theorem sknSkipsOnBit31OfA : Obligations.SknSkipsOnBit31OfA := by
  refine ⟨fun m l s => ?_, fun v => ⟨.direct, 0, ?_⟩, .immediate, 0, by decide⟩
  · rw [exec_of_opcodeFits_original rfl, effect_skn]
  · cases v <;> decide

/-- Settles O18: STP is defined in both variants, and its effect is the signal alone. -/
theorem stpYieldsStopAndChangesNothing : Obligations.StpYieldsStopAndChangesNothing := by
  refine ⟨fun m l => exec_of_opcodeFits_original (i := .stp m l) rfl, fun v => ⟨.direct, 0, ?_⟩,
    .immediate, 0, by decide⟩
  cases v <;> decide

end Sys2Proof.Machine
end

section
/-! The accumulator (spec/42_accumulator.md): the next state of LDN, SUB, SUB5, LDA and ADD with their words, and their
results as exact integers. -/

namespace Sys2Proof

/-! ### The words of an opcode value Extended alone has -/

/-- R54: Original reads a canonical word without bit 16, which is the high bit of the opcode value, and without bit
31. -/
theorem decode_original_encodeFields (op : Opcode) (m : AddrMode) (l : Line) :
    decode .original (encodeFields op m l) = Instr.ofFields (op &&& 7) .direct l := by
  rw [decode, opcodeField_original_encodeFields, modeField_original, lineField_encodeFields]

/-- R54, R61: the words of any opcode value under both variants, given by its two words for line 0: Extended reads the
value and the mode, Original the low three bits of the value, always direct. -/
theorem decode_words_in_both_variants {op : Opcode} {direct immediate : Word}
    (hd : encodeFields op .direct 0 = direct) (hi : encodeFields op .immediate 0 = immediate) (l : Line) :
    decode .extended (direct ||| l.setWidth 32) = Instr.ofFields op .direct l ∧
    decode .extended (immediate ||| l.setWidth 32) = Instr.ofFields op .immediate l ∧
    decode .original (direct ||| l.setWidth 32) = Instr.ofFields (op &&& 7) .direct l ∧
    decode .original (immediate ||| l.setWidth 32) = Instr.ofFields (op &&& 7) .direct l := by
  rw [← hd, ← hi, ← encodeFields_eq_or_line, ← encodeFields_eq_or_line]
  exact ⟨decode_encodeFields (Instr.wellFormed_extended _), decode_encodeFields (Instr.wellFormed_extended _),
    decode_original_encodeFields op .direct l, decode_original_encodeFields op .immediate l⟩

end Sys2Proof

namespace Sys2Proof.Machine

/-! ### The instructions of Extended -/

/-- R56, R77: in Extended Execute of every opcode value below 11 completes. -/
theorem exec_of_extended {i : Instr} {s : State} (hv : s.variant = .extended) (h : i.opcode.toNat < 11) :
    exec i s = .next (effect i s) := by
  rw [exec_eq, hv, if_pos (opcodeDefined_extended.mpr h)]

/-! ### Exact integer results (R105) -/

/-- Reduction modulo 2^32 to the signed range leaves a number of that range alone. -/
theorem bmod_eq_of_fits {z : Int} (hlow : -2 ^ 31 ≤ z) (hhigh : z < 2 ^ 31) : z.bmod (2 ^ 32) = z :=
  Int.bmod_eq_of_le hlow hhigh

theorem word_add_toInt {x y : Word} (hlow : -2 ^ 31 ≤ x.toInt + y.toInt) (hhigh : x.toInt + y.toInt < 2 ^ 31) :
    (x + y).toInt = x.toInt + y.toInt := by
  rw [BitVec.toInt_add, bmod_eq_of_fits hlow hhigh]

theorem word_sub_toInt {x y : Word} (hlow : -2 ^ 31 ≤ x.toInt - y.toInt) (hhigh : x.toInt - y.toInt < 2 ^ 31) :
    (x - y).toInt = x.toInt - y.toInt := by
  rw [BitVec.toInt_sub, bmod_eq_of_fits hlow hhigh]

/-- Only the negation of -2^31 leaves the signed range, and it leaves it upwards. -/
theorem negate_toInt {x : Word} (hhigh : -x.toInt < 2 ^ 31) : (negate x).toInt = -x.toInt := by
  have hx : x.toInt < 2 ^ 31 := BitVec.toInt_lt
  rw [negate_eq_neg, BitVec.toInt_neg, bmod_eq_of_fits (by omega) hhigh]

/-! ### The obligations -/

/-- Settles O21: LDN is defined in both variants. -/
theorem ldnLoadsNegatedOperand : Obligations.LdnLoadsNegatedOperand :=
  ⟨fun m l => exec_of_opcodeFits_original (i := .ldn m l) rfl,
    decode_words_of_opcode_lt (op := 2) (by decide) (by decide) (by decide)⟩

/-- Settles O22: SUB is defined in both variants, and `negate` is the library's negation. -/
theorem subSubtractsFromA : Obligations.SubSubtractsFromA := by
  refine ⟨fun m l => exec_of_opcodeFits_original (i := .sub m l) rfl, fun x y => ?_,
    decode_words_of_opcode_lt (op := 4) (by decide) (by decide) (by decide)⟩
  rw [negate_eq_neg, BitVec.sub_eq_add_neg]

/-- Settles O23: SUB5 is defined in both variants, and the effects of the two opcode values are one. -/
theorem sub5EqualsSub : Obligations.Sub5EqualsSub := by
  have hsub5 (m : AddrMode) (l : Line) (s : State) : exec (.sub5 m l) s = .next (effect (.sub m l) s) :=
    exec_of_opcodeFits_original (i := .sub5 m l) rfl s
  refine ⟨fun m l s => ⟨hsub5 m l s, ?_⟩,
    decode_words_of_opcode_lt (op := 5) (by decide) (by decide) (by decide)⟩
  rw [hsub5, exec_of_opcodeFits_original rfl]

/-- Settles O24: Extended defines LDA's value 8, of which Original reads the low three bits, JMP's 0. -/
theorem ldaLoadsOperand : Obligations.LdaLoadsOperand :=
  ⟨fun m l _ hv => exec_of_extended (i := .lda m l) hv (by simp [Instr.opcode]),
    decode_words_in_both_variants (op := 8) (by decide) (by decide)⟩

/-- Settles O25: Extended defines ADD's value 10, of which Original reads the low three bits, LDN's 2. -/
theorem addAddsToA : Obligations.AddAddsToA :=
  ⟨fun m l _ hv => exec_of_extended (i := .add m l) hv (by simp [Instr.opcode]),
    decode_words_in_both_variants (op := 10) (by decide) (by decide)⟩

/-- Settles O26: each instruction's next `A` is a sum, a difference or a negation of words, whose two readings are the
exact result modulo 2^32 and, inside the signed range, the exact result. -/
theorem arithmeticIsModuloAndSignedWhereItFits : Obligations.ArithmeticIsModuloAndSignedWhereItFits := by
  intro m l s
  obtain ⟨hadd, -⟩ := addAddsToA
  obtain ⟨hsub, -, -⟩ := subSubtractsFromA
  obtain ⟨hsub5, -⟩ := sub5EqualsSub
  obtain ⟨hsub5, -⟩ := hsub5 m l s
  obtain ⟨hldn, -⟩ := ldnLoadsNegatedOperand
  obtain ⟨-, hsub_toNat, -⟩ := jrpSubtractsOperandFromIp
  obtain ⟨hnegate_toNat, -⟩ := negateIsTwosComplement
  exact ⟨fun hv => ⟨_, hadd m l s hv, BitVec.toNat_add _ _, word_add_toInt⟩,
    ⟨_, hsub m l s, hsub5, hsub_toNat _ _, word_sub_toInt⟩,
    ⟨_, hldn m l s, hnegate_toNat _, negate_toInt⟩⟩

end Sys2Proof.Machine
end

section
/-! The store instructions (spec/43_store.md): the next state of STO and STN, whatever the mode, with their words. -/

namespace Sys2Proof.Machine

/-- R34, R82: an instruction whose effect is one store write and Continue leaves every other line and register alone. -/
theorem exec_frame_of_effect_memWrite {i : Instr} {s : State} {l : Line} {v : Word}
    (hexec : exec i s = .next (effect i s)) (heffect : effect i s = writeSignal (memWrite s l v) .cont) :
    ∃ t, exec i s = .next t ∧ memRead t l = v ∧ (∀ l' : Line, l' ≠ l → memRead t l' = memRead s l') ∧
      t.a = s.a ∧ t.ip = s.ip ∧ t.ir = s.ir ∧ t.variant = s.variant ∧ t.signal = some .cont := by
  obtain ⟨hsame, hother, ha, hip, hir⟩ := memWriteChangesOneWord s l v
  exact ⟨writeSignal (memWrite s l v) .cont, by rw [hexec, heffect], hsame, hother, ha, hip, hir,
    memWrite_variant s l v, writeSignal_signal _ _⟩

/-- Settles O27: STO is defined in both variants, and its effect is the write of `A` at the line field. -/
theorem stoStoresAAtItsLine : Obligations.StoStoresAAtItsLine :=
  ⟨fun m l s => exec_frame_of_effect_memWrite (exec_of_opcodeFits_original rfl s) (effect_sto m l s),
    decode_words_of_opcode_lt (op := 3) (by decide) (by decide) (by decide)⟩

/-- Settles O28: Extended defines STN's value 9, of which Original reads the low three bits, JRP's 1; its effect is the
write of the negated `A` at the line field. -/
theorem stnStoresNegatedAAtItsLine : Obligations.StnStoresNegatedAAtItsLine :=
  ⟨fun m l s hv => exec_frame_of_effect_memWrite (exec_of_extended hv (by simp [Instr.opcode])) (effect_stn m l s),
    decode_words_in_both_variants (op := 9) (by decide) (by decide)⟩

end Sys2Proof.Machine
end

section
/-! The one fault (spec/60_exceptions.md): when a cycle raises it, and the state it leaves. -/

namespace Sys2Proof.Machine

/-! ### When a cycle faults -/

theorem exists_fault_iff_not_safe (s : State) : (∃ r, step s = .fault r) ↔ ¬ s.safe :=
  ⟨fun ⟨_, hr⟩ => not_safe_of_step_fault hr, fun h => ⟨_, step_of_not_safe h⟩⟩

/-- R56, R77: Extended's check, as a bound on the number in bits 16:13 of the word fetched. -/
theorem safe_of_extended_iff {s : State} (hv : s.variant = .extended) :
    s.safe ↔ (nextWord s).toNat / 2 ^ 13 % 16 < 11 := by
  rw [State.safe, hv, opcodeDefined_extended, opcodeField_extended_toNat]

/-- R120: the one reachable cause is an opcode value of 11 or more, in Extended. -/
theorem not_safe_iff (s : State) :
    ¬ s.safe ↔ s.variant = .extended ∧ 11 ≤ (nextWord s).toNat / 2 ^ 13 % 16 := by
  cases hv : s.variant with
  | original => simp [safe_of_original hv]
  | extended => rw [safe_of_extended_iff hv, not_lt, and_iff_right rfl]

/-! ### What the fault carries -/

/-- R52, R74: in Extended the decoded opcode value is the number in bits 16:13 of the word fetched. -/
theorem nextInstr_opcode_toNat_of_extended {s : State} (hv : s.variant = .extended) :
    (nextInstr s).opcode.toNat = (nextWord s).toNat / 2 ^ 13 % 16 := by
  rw [nextInstr, decode_opcode, hv, opcodeField_extended_toNat]

/-- Settles O13: a cycle faults exactly from an unsafe state, which only Extended has; the fault carries the decoded
opcode value and the state after Fetch. -/
theorem faultingCycleLeavesTheFetchState : Obligations.FaultingCycleLeavesTheFetchState := by
  intro s
  refine ⟨(exists_fault_iff_not_safe s).trans (not_safe_iff s), fun op left hf => ?_⟩
  obtain ⟨hv, -⟩ := (not_safe_iff s).mp (not_safe_of_step_fault hf)
  obtain ⟨rfl, rfl⟩ := step_fault_eq hf
  exact ⟨nextInstr_opcode_toNat_of_extended hv, fetch_ip s, fetch_ir s, fetch_a s, memRead_fetch s, fetch_variant s⟩

end Sys2Proof.Machine
end

section
/-! Reset, the launch and the hazards (spec/70_reset_and_hazards.md): the words on which the two variants agree, the
host's reset with the load that must follow it, and the first instruction executed. -/

namespace Sys2Proof.Machine

/-! ### One cycle under either variant -/

/-- R54, R78: the operand is where the variant is read, and a direct operand is a store word in both. -/
theorem effect_of_variant {i : Instr} (h : i.mode = .direct) (s : State) (v : Variant) :
    effect i { s with variant := v } = { effect i s with variant := v } := by
  cases i with
  | jmp m l | jrp m l | ldn m l | sub m l | sub5 m l | lda m l | add m l =>
    obtain rfl : m = .direct := h
    simp only [effect, operand_direct]
    rfl
  | _ => rfl

/-- R77, R81: the cycle under a given variant, on a word which that variant decodes to a direct instruction of a defined
opcode value: the effect is that under the state's own variant. -/
theorem step_of_variant {s : State} {v : Variant} {i : Instr} (hi : decode v (nextWord s) = i)
    (hop : i.opcode.toNat < 11) (hmode : i.mode = .direct) :
    step { s with variant := v } = .next { effect i (fetch s) with variant := v } := by
  have hnext : nextInstr { s with variant := v } = i := hi
  have hsafe : State.safe { s with variant := v } := safe_of_opcode_lt (hnext ▸ hop)
  rw [step_of_safe hsafe, hnext, ← effect_of_variant hmode]
  rfl

/-- Settles O37: both variants decode the word to the one instruction that Original reads, direct and with an opcode
value below 8. -/
theorem variantsAgreeOnWordsWithoutBits16And31 : Obligations.VariantsAgreeOnWordsWithoutBits16And31 := by
  intro s h16 h31
  obtain ⟨hlt, hmode⟩ := Instr.wellFormed_original.mp (decode_wellFormed .original (nextWord s))
  have hop : (decode .original (nextWord s)).opcode.toNat < 11 := lt_trans hlt (by decide)
  exact ⟨effect (decode .original (nextWord s)) (fetch s), step_of_variant rfl hop hmode,
    step_of_variant (decode_eq_of_bits_clear h16 h31).symm hop hmode⟩

/-! ### The load after a reset -/

/-- R24, R142: 32 words loaded from line 0 on leave no line missing, since every line is the line of a number below
32. -/
theorem Session.loadAll_created (v : Variant) {image : List Word} (h : image.length = 32) :
    (Session.created v).loadAll 0 image = some (.loading [] (launch v image)) := by
  obtain ⟨missing, hload, hmissing⟩ := Session.loadAll_loading image 0 allLines (State.initial v)
  have hnone : missing = [] := List.eq_nil_iff_forall_not_mem.mpr fun l hl => by
    have hbound : l.toNat < 0 + image.length := by rw [h]; omega
    obtain ⟨-, hwritten⟩ := (hmissing l).mp hl
    exact hwritten l.toNat (Nat.zero_le _) hbound (line_ofNat_toNat l).symm
  rw [hnone] at hload
  exact hload

/-- Settles O46: reset creates the session anew under the variant it had, so the facts about reset and about the window
before launch apply, and 32 loads make the launch. -/
theorem hostResetZeroesFromEveryState : Obligations.HostResetZeroesFromEveryState := by
  intro x
  obtain ⟨hzero, -⟩ := resetZeroesTheMachineState
  obtain ⟨hread, ha, hip, hir, -⟩ := hzero x.state.variant
  obtain ⟨-, hcreated, hlaunched⟩ := noCycleBeforeLaunch
  obtain ⟨-, -, hcycle⟩ := hcreated x.state.variant
  exact ⟨hread, ha, hip, hir, Session.reset_variant x, hcycle, fun image h =>
    ⟨_, Session.loadAll_created x.state.variant h, rfl, hlaunched _⟩⟩

/-! ### The first instruction executed -/

/-- R73: `IP` is incremented before the word is read, so from 0 the line read is 1. -/
theorem nextLine_of_ip_zero {s : State} (h : s.ip = 0) : nextLine s = 1 :=
  nextLine_of_ip_eq h

/-- R72: line 0 is fetched after line 31 alone. -/
theorem nextLine_eq_zero_iff (s : State) : nextLine s = 0 ↔ s.ip.toNat % 32 = 31 := by
  have hzero : (0 : Line).toNat = 0 := rfl
  rw [nextLine_eq_ofNat, ← BitVec.toNat_inj, BitVec.toNat_ofNat, hzero]
  omega

/-- Settles O49: from `IP` 0 Fetch makes `IP` 1 and loads the word at line 1, and the cycle is Execute of that word; the
launch sets `IP` to 0. -/
theorem firstInstructionIsAtLineOne : Obligations.FirstInstructionIsAtLineOne := by
  refine ⟨fun s h => ?_, fun v image hlen => ?_, nextLine_eq_zero_iff⟩
  · have hir : (fetch s).ir = memRead s 1 := by rw [fetch_ir, nextLine_of_ip_zero h]
    have hip : (fetch s).ip = 1 := by rw [fetch_ip, h]; rfl
    have hfetch : fetch s = { s with ip := 1, ir := memRead s 1 } := by rw [← hip, ← hir]; rfl
    exact ⟨hir, hip, by rw [step, hir, hfetch]⟩
  · obtain ⟨⟨-, hip, -, -⟩, -⟩ := launchHoldsTheImage v image hlen
    exact hip

end Sys2Proof.Machine
end
